-- ==== Sys2Proof/Word.lean ====
section
/-! DEFINITION. The word of the machine (spec/00_scope.md rules R4, R5): a signed 64-bit integer, held as its
two's-complement pattern. -/

namespace Sys2Proof

/-- WORD: every memory value, operand and channel value, and the two registers (rule R4). `BitVec.toInt` reads it as
the signed integer the rules speak of. -/
abbrev Word := BitVec 64

/-- How many addresses exist: ADDR is 0 to 2^63 - 1 (rule R4, spec/20_memory.md rule R40). -/
abbrev addressLimit : Nat := 2 ^ 63

end Sys2Proof
end

