-- ==== Sys2Proof/Config.lean ====
section
/-! DEFINITION. What the spec leaves as a parameter (spec/00_scope.md rule R4): the capacities of the two channels.
The values themselves are fields of the state, bound when a machine is constructed; see notes/assumptions/4.md. -/

namespace Sys2Proof

/-- OUT_CAPACITY and IN_CAPACITY: "a natural number or infinity" (rule R4). -/
inductive Capacity where
  | bounded (n : Nat)
  | unbounded
  deriving DecidableEq, Repr

/-- The capacity `State.reset` binds to the outbound channel.
DESIGN CHOICE, unsafe (notes/assumptions/4.md): the spec leaves OUT_CAPACITY open (decision D16). -/
def Config.resetOutCapacity : Capacity := .unbounded

/-- The capacity `State.reset` binds to the inbound channel.
DESIGN CHOICE, unsafe (notes/assumptions/4.md): the spec leaves IN_CAPACITY open (decision D17). -/
def Config.resetInCapacity : Capacity := .unbounded

end Sys2Proof
end

