-- ==== Sys2Proof/Machine/State.lean ====
section
/-! DEFINITION. The state of one machine (spec/10_state.md rules R20 to R36), its value after reset, and the reasons a
step of the interface can stop. -/

namespace Sys2Proof.Machine

/-- The state of the run loop (rule R25). -/
inductive Status where
  | running
  | halted
  | faulted
  deriving DecidableEq, Repr

/-- Why the machine is Faulted (rule R26). -/
inductive Cause where
  | none
  | invalidAddress
  | illegalOpcode
  | illegalMode
  | inputClosed
  deriving DecidableEq, Repr

/-- One word of memory at an address. Memory is word-addressed and has no byte view (spec/20_memory.md rule R45), so a
cell holds a whole word; notes/assumptions/1.md. -/
abbrev Cell := Nat × Word

/-- The memory `M` (rule R28): the words that are not 0, by strictly rising address. An unlisted address reads as 0. -/
abbrev Memory := List Cell

/-- The complete state of one machine (rule R20), the ghost `out_log` (rule R33) and the two channel capacities, which
are parameters the channels bring along when the machine is constructed (rules R4, R180; notes/assumptions/4.md). -/
structure State where
  /-- The program counter (R21). -/
  pc : Word
  /-- The relative base (R22). -/
  rb : Word
  /-- The memory (R28). -/
  mem : Memory
  /-- The run state (R25). -/
  status : Status
  /-- The fault cause (R26). -/
  cause : Cause
  /-- The fault detail (R27). -/
  faultInfo : Word
  /-- The inbound queue, head first (R29). -/
  inq : List Word
  /-- The host has closed the inbound channel (R29). -/
  inClosed : Bool
  /-- The outbound queue, head first (R30). -/
  outq : List Word
  /-- The machine has closed the outbound channel (R30). -/
  outClosed : Bool
  /-- Ghost: every word ever emitted, in order (R33). No operation reads it. -/
  outLog : List Word
  /-- The model's own field: IN_CAPACITY (R4). No step writes it. -/
  inCapacity : Capacity
  /-- The model's own field: OUT_CAPACITY (R4). No step writes it. -/
  outCapacity : Capacity
  deriving DecidableEq, Repr

/-- What a `raise <Cause>(info)` carries (spec/00_scope.md rule R8). -/
structure Raise where
  cause : Cause
  info : Word
  deriving DecidableEq, Repr

/-- Why `step` gives no next state. The faults of the spec are NOT among these: entering the Faulted state is a next
state (spec/60_exceptions.md rule R158). -/
inductive Fault where
  /-- Raised by `step` alone, in a Halted machine: it "has no further step" (spec/46_halt.md rule R145,
  spec/40_fetch_dispatch.md rule R80). Safe: the spec gives it no step, and the model takes none. -/
  | halted
  /-- Raised by `step` alone, in a Faulted machine: Faulted is terminal (spec/60_exceptions.md rule R160). Safe: the spec
  gives it no step, and the model takes none. -/
  | faulted
  deriving DecidableEq, Repr

/-- Why an instruction has no meaning in the model. -/
inductive Refusal where
  /-- Raised by an arm of `exec` whose instruction has no meaning yet. No arm raises it: all ten are modelled. Safe. -/
  | notModelled (mnemonic : String)
  deriving DecidableEq, Repr

/-- The machine right after reset with the empty program and an empty, open inbound channel (rule R34). A machine with
a program is `State.new` (Machine/Ops.lean; notes/assumptions/7.md). -/
def State.reset : State where
  pc := 0
  rb := 0
  mem := []
  status := .running
  cause := .none
  faultInfo := 0
  inq := []
  inClosed := false
  outq := []
  outClosed := false
  outLog := []
  inCapacity := Config.resetInCapacity
  outCapacity := Config.resetOutCapacity

end Sys2Proof.Machine
end

