-- ==== Sys2Proof/Machine/Ops.lean ====
section
/-! DEFINITION. The named operations over memory, registers and channels; entering the Faulted state; stalling; reset. -/

namespace Sys2Proof.Machine

/-- `wrap64(z)` (spec/00_scope.md rule R6): the word congruent to `z` modulo 2^64. -/
def wrap64 (z : Int) : Word := BitVec.ofInt 64 z

/-! ### Memory -/

/-- `M[a]`: the word listed at `a`, 0 where none is (spec/10_state.md rule R28, spec/20_memory.md rule R43). -/
def Memory.read (m : Memory) (a : Nat) : Word :=
  match m with
  | [] => 0
  | (k, v) :: rest => if k = a then v else Memory.read rest a

/-- A cell put at its place by address. -/
def Memory.insertCell (m : Memory) (a : Nat) (v : Word) : Memory :=
  match m with
  | [] => [(a, v)]
  | (k, x) :: rest => if a < k then (a, v) :: (k, x) :: rest else (k, x) :: Memory.insertCell rest a v

/-- `M[a] <- v`: the whole word is replaced (spec/20_memory.md rule R42). Writing 0, what an unlisted address reads as,
removes the cell. -/
def Memory.write (m : Memory) (a : Nat) (v : Word) : Memory :=
  if v = 0 then m.filter fun c => decide (c.1 ≠ a)
  else Memory.insertCell (m.filter fun c => decide (c.1 ≠ a)) a v

/-- The cells of an image placed from address `a` on; its zero words stay unlisted. -/
def Memory.image (a : Nat) : List Word → Memory
  | [] => []
  | v :: vs => if v = 0 then Memory.image (a + 1) vs else (a, v) :: Memory.image (a + 1) vs

/-- The canonical form: addresses strictly rising, every address one that exists, no cell that holds 0. -/
abbrev Memory.wf (m : Memory) : Prop :=
  m.Pairwise (fun c d => c.1 < d.1) ∧ ∀ c ∈ m, c.1 < addressLimit ∧ c.2 ≠ 0

/-- The only test of an address: its sign (spec/20_memory.md rules R41, R42). -/
def checkAddr (a : Word) : Except Raise Nat :=
  if a.toInt < 0 then .error ⟨.invalidAddress, a⟩ else .ok a.toNat

/-- `MemRead(addr, 1)` (spec/20_memory.md rule R41). -/
def memRead (s : State) (a : Word) : Except Raise Word :=
  match checkAddr a with
  | .error r => .error r
  | .ok n => .ok (s.mem.read n)

/-- The store of a commit phase, at an address already checked (spec/40_fetch_dispatch.md rules R84, R87). -/
def storeWord (n : Nat) (v : Word) (s : State) : State := { s with mem := s.mem.write n v }

/-- `MemWrite(addr, 1, v)` (spec/20_memory.md rule R42). -/
def memWrite (s : State) (a v : Word) : Except Raise State :=
  match checkAddr a with
  | .error r => .error r
  | .ok n => .ok (storeWord n v s)

/-- Words stored at `a` and the addresses after it; a word whose address does not exist is dropped. -/
def placeWords (s : State) (a : Word) : List Word → State
  | [] => s
  | v :: vs =>
    match memWrite s a v with
    | .error _ => placeWords s (wrap64 (a.toInt + 1)) vs
    | .ok t => placeWords t (wrap64 (a.toInt + 1)) vs

/-! ### The program counter -/

/-- `next_pc = wrap64(pc + n + 1)`, `n` the arity (spec/40_fetch_dispatch.md rule R85). -/
def nextPc (n : Nat) (s : State) : Word := wrap64 (s.pc.toInt + n + 1)

/-- `pc <- next_pc`. -/
def advance (n : Nat) (s : State) : State := { s with pc := nextPc n s }

/-- `pc <- target`, unchecked (spec/43_jumps.md rules R120, R121). -/
def jumpTo (target : Word) (s : State) : State := { s with pc := target }

/-! ### The relative base -/

/-- `rb <- wrap64(rb + va)` (spec/45_relbase.md rule R140). -/
def adjustRb (va : Word) (s : State) : State := { s with rb := wrap64 (s.rb.toInt + va.toInt) }

/-! ### Faults and stalls -/

/-- Fault entry (spec/60_exceptions.md rule R158): the cause and its detail are recorded and the outbound channel is
closed; `pc`, `rb`, `M` and both queues stay. -/
def takeFault (r : Raise) (s : State) : State :=
  { s with status := .faulted, cause := r.cause, faultInfo := r.info, outClosed := true }

/-- `stall` (spec/40_fetch_dispatch.md rule R88): nothing changes, and the instruction is tried again.
DESIGN CHOICE, safe (notes/assumptions/2.md): the interface shows a wait as a next state equal to the old one. -/
def stall (s : State) : Host.Outcome State Fault Refusal := .next s

/-- Go on with a resolved value, or enter the fault it raised with nothing changed (spec/40_fetch_dispatch.md rule R87). -/
def resolve {α : Type} (e : Except Raise α) (s : State) (k : α → Host.Outcome State Fault Refusal) :
    Host.Outcome State Fault Refusal :=
  match e with
  | .error r => .next (takeFault r s)
  | .ok v => k v

/-! ### Channels (spec/42_io.md rules R112, R113) -/

/-- A queue of `len` values has room for one more. -/
def hasRoom (c : Capacity) (len : Nat) : Bool :=
  match c with
  | .bounded n => decide (len < n)
  | .unbounded => true

/-- `InAvail()` with the value: the head of `inq`, if there is one. -/
def inHead (s : State) : Option Word := s.inq.head?

/-- `InPop()`. -/
def inPop (s : State) : State := { s with inq := s.inq.tail }

/-- `OutCanPush()`. -/
def outCanPush (s : State) : Bool := hasRoom s.outCapacity s.outq.length

/-- `OutPush(v)`: appended to `outq` and to the ghost `out_log`. -/
def outPush (v : Word) (s : State) : State := { s with outq := s.outq ++ [v], outLog := s.outLog ++ [v] }

/-- What `halt` commits (spec/46_halt.md rule R145). -/
def enterHalted (s : State) : State := { s with status := .halted, outClosed := true }

/-! ### Reset -/

/-- What the host binds at construction (spec/70_reset_and_hazards.md rule R180): the inbound channel as it stands, and
the capacities of both. -/
structure Channels where
  inq : List Word
  inClosed : Bool
  inCapacity : Capacity
  outCapacity : Capacity
  deriving DecidableEq, Repr

/-- `new(program, input, output)` (rules R34, R180): the image at addresses 0 to n - 1 and 0 elsewhere (R56). -/
def State.new (program : List Word) (ch : Channels) : State where
  pc := 0
  rb := 0
  mem := Memory.image 0 program
  status := .running
  cause := .none
  faultInfo := 0
  inq := ch.inq
  inClosed := ch.inClosed
  outq := []
  outClosed := false
  outLog := []
  inCapacity := ch.inCapacity
  outCapacity := ch.outCapacity

end Sys2Proof.Machine
end

