-- ==== Sys2Proof/Syntax.lean ====
section
/-! DEFINITION. The instructions (spec/30_encoding.md rules R60 to R66), one constructor per row of
spec/opcode_table.json. An operand carries its addressing mode and its raw word; the type of a write operand has no
immediate form, so that the only ill-formed thing left is an instruction WORD (see WellFormed.lean). -/

namespace Sys2Proof

/-- The addressing modes a read operand may have (rules R65, R66). -/
inductive ReadMode where
  | positional
  | immediate
  | relative
  deriving DecidableEq, Repr

/-- The addressing modes a write operand may have: never immediate (rule R66). -/
inductive WriteMode where
  | positional
  | relative
  deriving DecidableEq, Repr

/-- What the instruction word alone says (rule R72): the opcode and one mode for each of its operands. -/
inductive Header where
  | add (a b : ReadMode) (c : WriteMode)
  | mul (a b : ReadMode) (c : WriteMode)
  | input (a : WriteMode)
  | output (a : ReadMode)
  | jumpIfTrue (a b : ReadMode)
  | jumpIfFalse (a b : ReadMode)
  | lessThan (a b : ReadMode) (c : WriteMode)
  | equals (a b : ReadMode) (c : WriteMode)
  | adjustRelativeBase (a : ReadMode)
  | halt
  deriving DecidableEq, Repr

/-- A read operand: its mode and the raw word that follows the instruction word (rule R70). -/
inductive ReadOperand where
  | positional (raw : Word)
  | immediate (raw : Word)
  | relative (raw : Word)
  deriving DecidableEq, Repr

/-- A write operand (rules R66, R70). -/
inductive WriteOperand where
  | positional (raw : Word)
  | relative (raw : Word)
  deriving DecidableEq, Repr

/-- The ten instructions (rule R63), with operands a, b, c in the order of spec/00_scope.md rule R9. -/
inductive Instr where
  | add (a b : ReadOperand) (c : WriteOperand)
  | mul (a b : ReadOperand) (c : WriteOperand)
  | input (a : WriteOperand)
  | output (a : ReadOperand)
  | jumpIfTrue (a b : ReadOperand)
  | jumpIfFalse (a b : ReadOperand)
  | lessThan (a b : ReadOperand) (c : WriteOperand)
  | equals (a b : ReadOperand) (c : WriteOperand)
  | adjustRelativeBase (a : ReadOperand)
  | halt
  deriving DecidableEq, Repr

end Sys2Proof
end

