-- ==== Sys2Proof/Machine/Operands.lean ====
section
/-! DEFINITION. Operand resolution: the machine's only load and store paths (spec/40_fetch_dispatch.md rules R83, R84). -/

namespace Sys2Proof.Machine

/-- `wrap64(raw + rb)`: the address of a relative-mode operand. -/
def relativeAddr (s : State) (raw : Word) : Word := wrap64 (raw.toInt + s.rb.toInt)

/-- `ReadOp(i)` (rule R83). -/
def readOp (s : State) : ReadOperand → Except Raise Word
  | .positional raw => memRead s raw
  | .immediate raw => .ok raw
  | .relative raw => memRead s (relativeAddr s raw)

/-- `WriteAddr(i)` (rule R84): the raw operand itself is the address in positional mode; it is checked here, before the
instruction's effect. -/
def writeAddr (s : State) : WriteOperand → Except Raise Nat
  | .positional raw => checkAddr raw
  | .relative raw => checkAddr (relativeAddr s raw)

end Sys2Proof.Machine
end

