-- ==== Sys2Proof/Machine/Arithmetic.lean ====
section
/-! DEFINITION. `add` and `mul` (spec/41_arithmetic.md), and the shape they share with the comparisons. -/

namespace Sys2Proof.Machine

/-- Format F3 (spec/30_encoding.md rule R71): resolve a, b and the target c in that order, store `f va vb`, advance by 4. -/
def storeBinary (f : Word → Word → Word) (a b : ReadOperand) (c : WriteOperand) (s : State) :
    Host.Outcome State Fault Refusal :=
  resolve (readOp s a) s fun va =>
  resolve (readOp s b) s fun vb =>
  resolve (writeAddr s c) s fun n =>
  .next (advance 3 (storeWord n (f va vb) s))

/-- The sum as a mathematical integer, then wrapped (rules R100, R102). -/
def wrapAdd (x y : Word) : Word := wrap64 (x.toInt + y.toInt)

/-- The product as a mathematical integer, then wrapped (rules R101, R102). -/
def wrapMul (x y : Word) : Word := wrap64 (x.toInt * y.toInt)

/-- `add` (rule R100): `mem[c] = read(a) + read(b)`. -/
def execAdd (a b : ReadOperand) (c : WriteOperand) (s : State) : Host.Outcome State Fault Refusal :=
  storeBinary wrapAdd a b c s

/-- `mul` (rule R101): `mem[c] = read(a) * read(b)`. -/
def execMul (a b : ReadOperand) (c : WriteOperand) (s : State) : Host.Outcome State Fault Refusal :=
  storeBinary wrapMul a b c s

end Sys2Proof.Machine
end

