-- ==== Sys2Proof/Machine/Flags.lean ====
section
/-! DEFINITION. The truth values. The machine has no flags and no condition codes (spec/10_state.md rule R24): a
comparison gives a word, 0 or 1, and a conditional jump tests a word. -/

namespace Sys2Proof.Machine

/-- A truth value as the word the comparisons store. -/
def truthWord (b : Bool) : Word := if b then 1 else 0

/-- `va < vb` as signed integers, exact (spec/44_compare.md rule R130). -/
def lessThanWord (va vb : Word) : Word := truthWord (decide (va.toInt < vb.toInt))

/-- `va = vb`: all 64 bits agree (spec/44_compare.md rule R131). -/
def equalsWord (va vb : Word) : Word := truthWord (decide (va = vb))

/-- What a conditional jump takes as true: any non-zero value (spec/43_jumps.md rule R120). -/
def isNonZero (v : Word) : Bool := decide (v ≠ 0)

end Sys2Proof.Machine
end

