-- ==== Sys2Proof/Machine/Compare.lean ====
section
/-! DEFINITION. `less-than` and `equals` (spec/44_compare.md rules R130, R131). -/

namespace Sys2Proof.Machine

/-- `less-than` (rule R130): `mem[c] = 1 if read(a) < read(b) else 0`, signed. -/
def execLessThan (a b : ReadOperand) (c : WriteOperand) (s : State) : Host.Outcome State Fault Refusal :=
  storeBinary lessThanWord a b c s

/-- `equals` (rule R131): `mem[c] = 1 if read(a) == read(b) else 0`. -/
def execEquals (a b : ReadOperand) (c : WriteOperand) (s : State) : Host.Outcome State Fault Refusal :=
  storeBinary equalsWord a b c s

end Sys2Proof.Machine
end

