-- ==== Sys2Proof/Machine/Halt.lean ====
section
/-! DEFINITION. `halt` (spec/46_halt.md rule R145). -/

namespace Sys2Proof.Machine

/-- `halt` (rule R145): the run ends and the outbound channel is closed; `pc` is not advanced. -/
def execHalt (s : State) : Host.Outcome State Fault Refusal := .next (enterHalted s)

end Sys2Proof.Machine
end

