-- ==== Sys2Proof/Machine/InOut.lean ====
section
/-! DEFINITION. `input` and `output` (spec/42_io.md rules R110, R111). -/

namespace Sys2Proof.Machine

/-- `input` (rule R110): the address is checked first; with nothing to read it stalls while the channel is open and
raises InputClosed when it is closed; else it consumes the oldest value and stores it. -/
def execInput (a : WriteOperand) (s : State) : Host.Outcome State Fault Refusal :=
  resolve (writeAddr s a) s fun n =>
  match inHead s with
  | none => if s.inClosed then .next (takeFault ⟨.inputClosed, 0⟩ s) else stall s
  | some v => .next (advance 1 (storeWord n v (inPop s)))

/-- `output` (rule R111): the operand is resolved first; with no room it stalls; else it pushes the value. -/
def execOutput (a : ReadOperand) (s : State) : Host.Outcome State Fault Refusal :=
  resolve (readOp s a) s fun v =>
  if outCanPush s then .next (advance 1 (outPush v s)) else stall s

end Sys2Proof.Machine
end

