-- ==== Sys2Proof/Machine/Jumps.lean ====
section
/-! DEFINITION. `jump-if-true` and `jump-if-false` (spec/43_jumps.md rules R120, R121). -/

namespace Sys2Proof.Machine

/-- The two jumps: operand a is the condition; operand b is resolved only when the jump is taken, and its value, not
checked, is the target. -/
def jumpWhen (taken : Word → Bool) (a b : ReadOperand) (s : State) : Host.Outcome State Fault Refusal :=
  resolve (readOp s a) s fun va =>
  if taken va then resolve (readOp s b) s fun target => .next (jumpTo target s)
  else .next (advance 2 s)

/-- `jump-if-true` (rule R120). -/
def execJumpIfTrue (a b : ReadOperand) (s : State) : Host.Outcome State Fault Refusal :=
  jumpWhen isNonZero a b s

/-- `jump-if-false` (rule R121). -/
def execJumpIfFalse (a b : ReadOperand) (s : State) : Host.Outcome State Fault Refusal :=
  jumpWhen (fun va => !isNonZero va) a b s

end Sys2Proof.Machine
end

