-- ==== Sys2Proof/Machine/RelBase.lean ====
section
/-! DEFINITION. `adjust-relative-base` (spec/45_relbase.md rule R140). -/

namespace Sys2Proof.Machine

/-- `adjust-relative-base` (rule R140): the operand is read with the old `rb`; the new `rb` is never checked. -/
def execAdjustRelativeBase (a : ReadOperand) (s : State) : Host.Outcome State Fault Refusal :=
  resolve (readOp s a) s fun va => .next (advance 1 (adjustRb va s))

end Sys2Proof.Machine
end

