-- ==== Sys2Proof/Decode.lean ====
section
/-! DEFINITION. The decoder, and after it the encoder (spec/30_encoding.md rules R60 to R73). The encoding is on the
DECIMAL digits of the instruction word; no rule slices bits. -/

namespace Sys2Proof

/-- Why a word is no instruction word (rule R72). -/
inductive WordError where
  | illegalOpcode
  | illegalMode
  deriving DecidableEq, Repr

/-- Why a list of words begins with no instruction. `truncated` says that the list ends inside one; memory never does
(spec/20_memory.md rule R43). -/
inductive DecodeError where
  | word (e : WordError)
  | truncated
  deriving DecidableEq, Repr

/-- `digit(w, k)`: the k-th decimal digit, units at 0 (spec/00_scope.md rule R7). -/
def digit (n k : Nat) : Nat := n / 10 ^ k % 10

/-- "Digit 0 = positional, 1 = immediate, 2 = relative" (rule R65). -/
def readModeOfDigit : Nat → Option ReadMode
  | 0 => some .positional
  | 1 => some .immediate
  | 2 => some .relative
  | _ => none

/-- A write operand's digit is 0 or 2 only (rule R66). -/
def writeModeOfDigit : Nat → Option WriteMode
  | 0 => some .positional
  | 2 => some .relative
  | _ => none

/-- Format F1R: one read operand, its mode the hundreds digit (rules R64, R71). -/
def headerRead (mk : ReadMode → Header) (n : Nat) : Except WordError Header :=
  match readModeOfDigit (digit n 2) with
  | some a => .ok (mk a)
  | none => .error .illegalMode

/-- Format F1W: one write operand. -/
def headerWrite (mk : WriteMode → Header) (n : Nat) : Except WordError Header :=
  match writeModeOfDigit (digit n 2) with
  | some a => .ok (mk a)
  | none => .error .illegalMode

/-- Format F2: two read operands, modes in the hundreds and thousands digits. -/
def headerReadRead (mk : ReadMode → ReadMode → Header) (n : Nat) : Except WordError Header :=
  match readModeOfDigit (digit n 2), readModeOfDigit (digit n 3) with
  | some a, some b => .ok (mk a b)
  | _, _ => .error .illegalMode

/-- Format F3: two read operands and a write operand, modes in digits 2, 3 and 4. -/
def headerReadReadWrite (mk : ReadMode → ReadMode → WriteMode → Header) (n : Nat) : Except WordError Header :=
  match readModeOfDigit (digit n 2), readModeOfDigit (digit n 3), writeModeOfDigit (digit n 4) with
  | some a, some b, some c => .ok (mk a b c)
  | _, _, _ => .error .illegalMode

/-- `Decode(w)` (rule R72): a pure function of the one word. A negative word is IllegalOpcode (R68), an unknown opcode
is IllegalOpcode before any mode digit is looked at (R69), digits above the examined ones are ignored (R67). -/
def decodeWord (w : Word) : Except WordError Header :=
  if w.toInt < 0 then .error .illegalOpcode
  else
    match w.toNat % 100 with
    | 1 => headerReadReadWrite .add w.toNat
    | 2 => headerReadReadWrite .mul w.toNat
    | 3 => headerWrite .input w.toNat
    | 4 => headerRead .output w.toNat
    | 5 => headerReadRead .jumpIfTrue w.toNat
    | 6 => headerReadRead .jumpIfFalse w.toNat
    | 7 => headerReadReadWrite .lessThan w.toNat
    | 8 => headerReadReadWrite .equals w.toNat
    | 9 => headerRead .adjustRelativeBase w.toNat
    | 99 => .ok .halt
    | _ => .error .illegalOpcode

/-- The arity of an opcode (rule R63). -/
def Header.arity : Header → Nat
  | .add _ _ _ => 3
  | .mul _ _ _ => 3
  | .input _ => 1
  | .output _ => 1
  | .jumpIfTrue _ _ => 2
  | .jumpIfFalse _ _ => 2
  | .lessThan _ _ _ => 3
  | .equals _ _ _ => 3
  | .adjustRelativeBase _ => 1
  | .halt => 0

/-- A read operand from its mode and raw word: the whole word, as it stands (rule R70). -/
def ReadMode.operand : ReadMode → Word → ReadOperand
  | .positional, raw => .positional raw
  | .immediate, raw => .immediate raw
  | .relative, raw => .relative raw

/-- A write operand from its mode and raw word (rule R70). -/
def WriteMode.operand : WriteMode → Word → WriteOperand
  | .positional, raw => .positional raw
  | .relative, raw => .relative raw

/-- `raw[i]`, `i` from 0 here. Its default is never used: the raw words are always as many as the arity
(notes/assumptions/12.md). -/
def rawWord (raws : List Word) (i : Nat) : Word := raws.getD i 0

/-- The instruction of a header and its raw operand words (rule R60). -/
def Header.instr (raws : List Word) : Header → Instr
  | .add a b c => .add (a.operand (rawWord raws 0)) (b.operand (rawWord raws 1)) (c.operand (rawWord raws 2))
  | .mul a b c => .mul (a.operand (rawWord raws 0)) (b.operand (rawWord raws 1)) (c.operand (rawWord raws 2))
  | .input a => .input (a.operand (rawWord raws 0))
  | .output a => .output (a.operand (rawWord raws 0))
  | .jumpIfTrue a b => .jumpIfTrue (a.operand (rawWord raws 0)) (b.operand (rawWord raws 1))
  | .jumpIfFalse a b => .jumpIfFalse (a.operand (rawWord raws 0)) (b.operand (rawWord raws 1))
  | .lessThan a b c => .lessThan (a.operand (rawWord raws 0)) (b.operand (rawWord raws 1)) (c.operand (rawWord raws 2))
  | .equals a b c => .equals (a.operand (rawWord raws 0)) (b.operand (rawWord raws 1)) (c.operand (rawWord raws 2))
  | .adjustRelativeBase a => .adjustRelativeBase (a.operand (rawWord raws 0))
  | .halt => .halt

/-- An instruction and the words left over, from a list of words: total, rejecting by name. -/
def decode : List Word → Except DecodeError (Instr × List Word)
  | [] => .error .truncated
  | w :: rest =>
    match decodeWord w with
    | .error e => .error (.word e)
    | .ok h =>
      if rest.length < h.arity then .error .truncated
      else .ok (h.instr rest, rest.drop h.arity)

/-- `k` words of 64 bits laid out in `n`, the first word in its lowest bits: the bit numbering of
spec/opcode_table.json (notes/assumptions/13.md). -/
def tableWords : Nat → Nat → List Word
  | 0, _ => []
  | k + 1, n => BitVec.ofNat 64 n :: tableWords k (n / 2 ^ 64)

/-- MAX_ARITY + 1: the longest instruction, in words (spec/00_scope.md rule R4). -/
def longestInstr : Nat := 4

/-- The instruction the decoder reads from the lowest `nbits` bits of `w`, every bit above them 0. -/
def decodeTableWord (nbits w : Nat) : Option Instr :=
  match decode (tableWords longestInstr (w % 2 ^ nbits)) with
  | .ok (i, _) => some i
  | .error _ => none

/-! The encoder, from the same tables. The digits the decoder ignores are 0 (rule R75). -/

/-- The mode digit of a read operand (rule R65). -/
def ReadMode.toDigit : ReadMode → Nat
  | .positional => 0
  | .immediate => 1
  | .relative => 2

/-- The mode digit of a write operand (rules R65, R66). -/
def WriteMode.toDigit : WriteMode → Nat
  | .positional => 0
  | .relative => 2

/-- The digit string `CBAoo` (rule R61). -/
def headerDigits (opcode a b c : Nat) : Nat := opcode + 100 * a + 1000 * b + 10000 * c

/-- The instruction word of a header, as a number (rules R61, R63). -/
def Header.toNat : Header → Nat
  | .add a b c => headerDigits 1 a.toDigit b.toDigit c.toDigit
  | .mul a b c => headerDigits 2 a.toDigit b.toDigit c.toDigit
  | .input a => headerDigits 3 a.toDigit 0 0
  | .output a => headerDigits 4 a.toDigit 0 0
  | .jumpIfTrue a b => headerDigits 5 a.toDigit b.toDigit 0
  | .jumpIfFalse a b => headerDigits 6 a.toDigit b.toDigit 0
  | .lessThan a b c => headerDigits 7 a.toDigit b.toDigit c.toDigit
  | .equals a b c => headerDigits 8 a.toDigit b.toDigit c.toDigit
  | .adjustRelativeBase a => headerDigits 9 a.toDigit 0 0
  | .halt => headerDigits 99 0 0 0

/-- The instruction word of a header. -/
def Header.word (h : Header) : Word := BitVec.ofNat 64 h.toNat

/-- The mode of a read operand. -/
def ReadOperand.mode : ReadOperand → ReadMode
  | .positional _ => .positional
  | .immediate _ => .immediate
  | .relative _ => .relative

/-- The raw word of a read operand. -/
def ReadOperand.raw : ReadOperand → Word
  | .positional w => w
  | .immediate w => w
  | .relative w => w

/-- The mode of a write operand. -/
def WriteOperand.mode : WriteOperand → WriteMode
  | .positional _ => .positional
  | .relative _ => .relative

/-- The raw word of a write operand. -/
def WriteOperand.raw : WriteOperand → Word
  | .positional w => w
  | .relative w => w

/-- The header of an instruction: its opcode and modes. -/
def Instr.header : Instr → Header
  | .add a b c => .add a.mode b.mode c.mode
  | .mul a b c => .mul a.mode b.mode c.mode
  | .input a => .input a.mode
  | .output a => .output a.mode
  | .jumpIfTrue a b => .jumpIfTrue a.mode b.mode
  | .jumpIfFalse a b => .jumpIfFalse a.mode b.mode
  | .lessThan a b c => .lessThan a.mode b.mode c.mode
  | .equals a b c => .equals a.mode b.mode c.mode
  | .adjustRelativeBase a => .adjustRelativeBase a.mode
  | .halt => .halt

/-- The raw operand words of an instruction, in operand order (rule R60). -/
def Instr.raws : Instr → List Word
  | .add a b c => [a.raw, b.raw, c.raw]
  | .mul a b c => [a.raw, b.raw, c.raw]
  | .input a => [a.raw]
  | .output a => [a.raw]
  | .jumpIfTrue a b => [a.raw, b.raw]
  | .jumpIfFalse a b => [a.raw, b.raw]
  | .lessThan a b c => [a.raw, b.raw, c.raw]
  | .equals a b c => [a.raw, b.raw, c.raw]
  | .adjustRelativeBase a => [a.raw]
  | .halt => []

/-- The words of an instruction: the instruction word, then its raw operand words (rule R60). -/
def encode (i : Instr) : List Word := i.header.word :: i.raws

end Sys2Proof
end

