-- ==== Sys2Proof/Machine/Fetch.lean ====
section
/-! DEFINITION. Fetching the next instruction: instruction word, decode, raw operand words, in that order
(spec/40_fetch_dispatch.md rules R80 to R82; spec/60_exceptions.md rule R157, items 1 to 4). -/

namespace Sys2Proof.Machine

/-- The fault a decoding failure of the instruction word `w` raises; the detail is the whole word
(spec/60_exceptions.md rules R153, R154). -/
def decodeRaise (w : Word) : WordError → Raise
  | .illegalOpcode => ⟨.illegalOpcode, w⟩
  | .illegalMode => ⟨.illegalMode, w⟩

/-- The address of raw operand `i`, from 1: `wrap64(pc + i)` (rule R82). -/
def rawAddr (s : State) (i : Nat) : Word := wrap64 (s.pc.toInt + i)

/-- The first `n` raw operand words, lowest address first (rule R82). -/
def fetchRaws (s : State) : Nat → Except Raise (List Word)
  | 0 => .ok []
  | n + 1 =>
    match fetchRaws s n with
    | .error r => .error r
    | .ok ws =>
      match memRead s (rawAddr s (n + 1)) with
      | .error r => .error r
      | .ok w => .ok (ws ++ [w])

/-- The instruction at `pc`, read afresh from memory (rules R81, R82; spec/20_memory.md rule R54). -/
def fetch (s : State) : Except Raise Instr :=
  match memRead s s.pc with
  | .error r => .error r
  | .ok w =>
    match decodeWord w with
    | .error e => .error (decodeRaise w e)
    | .ok h =>
      match fetchRaws s h.arity with
      | .error r => .error r
      | .ok raws => .ok (h.instr raws)

end Sys2Proof.Machine
end

