-- ==== Sys2Proof/Machine/Step.lean ====
section
/-! DEFINITION. One step of the machine (spec/40_fetch_dispatch.md rule R80). -/

namespace Sys2Proof.Machine

/-- One step: only a Running machine has one; it fetches, decodes and executes one instruction, or enters the fault the
fetch raised. -/
def step (s : State) : Host.Outcome State Fault Refusal :=
  match s.status with
  | .halted => .fault .halted
  | .faulted => .fault .faulted
  | .running => resolve (fetch s) s fun i => exec i s

/-- `s` with the words of the instruction in the lowest `nbits` bits of `w` stored at `pc` and after it. -/
def State.withFetchWord (s : State) (nbits w : Nat) : State :=
  placeWords s s.pc (tableWords longestInstr (w % 2 ^ nbits))

end Sys2Proof.Machine
end

