-- ==== Sys2Proof/Machine/Loader.lean ====
section
/-! DEFINITION. The program text format and the Loader (spec/30_encoding.md rule R76; spec/70_reset_and_hazards.md rules
R183, R184). A text is its list of characters. -/

namespace Sys2Proof.Machine

/-- "`ParseError` (Loader only)": it never becomes a fault of a machine (spec/60_exceptions.md rule R156). -/
inductive ParseError where
  | malformedToken
  deriving DecidableEq, Repr

/-- Space, tab, carriage return, newline (rule R183, item 1). -/
def isBlank (c : Char) : Bool := c == ' ' || c == '\t' || c == '\r' || c == '\n'

/-- The text without its leading and trailing whitespace. -/
def trimText (cs : List Char) : List Char := ((cs.dropWhile isBlank).reverse.dropWhile isBlank).reverse

/-- The tokens: the text split at every comma (item 2). -/
def splitCommas : List Char → List (List Char)
  | [] => [[]]
  | c :: cs =>
    if c = ',' then [] :: splitCommas cs
    else
      match splitCommas cs with
      | [] => [[c]]
      | t :: ts => (c :: t) :: ts

/-- The value of a string of decimal digits, after the digits already read. -/
def digitsValue (acc : Nat) : List Char → Option Nat
  | [] => some acc
  | c :: cs => if 48 ≤ c.toNat ∧ c.toNat ≤ 57 then digitsValue (10 * acc + (c.toNat - 48)) cs else none

/-- One or more digits. -/
def unsignedValue : List Char → Option Nat
  | [] => none
  | c :: cs => digitsValue 0 (c :: cs)

/-- An optional minus sign and one or more digits (item 3). -/
def tokenValue : List Char → Option Int
  | '-' :: cs => (unsignedValue cs).map fun n => -(n : Int)
  | cs => (unsignedValue cs).map fun n => (n : Int)

/-- A valid token: its value lies in -2^63 to 2^63 - 1 (item 3). -/
def tokenWord (cs : List Char) : Option Word :=
  match tokenValue cs with
  | none => none
  | some z => if -(2 ^ 63) ≤ z ∧ z < 2 ^ 63 then some (wrap64 z) else none

/-- Every token's word, in order; nothing if one of them is malformed (items 4 to 6). -/
def tokenWords : List (List Char) → Except ParseError (List Word)
  | [] => .ok []
  | t :: ts =>
    match tokenWord t, tokenWords ts with
    | some v, .ok vs => .ok (v :: vs)
    | _, _ => .error .malformedToken

/-- The Loader: text to Program (rule R183). -/
def parseProgram (text : List Char) : Except ParseError (List Word) := tokenWords (splitCommas (trimText text))

/-! The way back, for the round trip of rule R184. -/

/-- The decimal digits of `n`, with as many as `fuel + 1` of them. -/
def renderNat : Nat → Nat → List Char
  | 0, n => [Char.ofNat (48 + n % 10)]
  | fuel + 1, n => if n < 10 then [Char.ofNat (48 + n)] else renderNat fuel (n / 10) ++ [Char.ofNat (48 + n % 10)]

/-- A word in signed base 10: a word has at most 19 digits (spec/00_scope.md rule R7). -/
def renderWord (w : Word) : List Char :=
  if w.toInt < 0 then '-' :: renderNat 18 w.toInt.natAbs else renderNat 18 w.toInt.natAbs

/-- The program text of a sequence of words. -/
def renderProgram : List Word → List Char
  | [] => []
  | [w] => renderWord w
  | w :: ws => renderWord w ++ ',' :: renderProgram ws

end Sys2Proof.Machine
end

