-- ==== Sys2Proof/Machine/HostMoves.lean ====
section
/-! DEFINITION. The host's moves and what it can see (spec/42_io.md rules R114 to R117, R119; spec/10_state.md rules R25,
R26, R36), and the interleaving of machine steps with them (spec/00_scope.md rule R10). The machine's own step is
`step`; nothing here changes what it does. -/

namespace Sys2Proof.Machine

/-! ### The condition the machine is in -/

/-- The five conditions of rule R119, functions of the state. -/
inductive Condition where
  | run
  | waitIn
  | waitOut
  | halted
  | faulted
  deriving DecidableEq, Repr

/-- The target address of the `input` at `pc`, where there is one and its evaluate phase raises no address fault. -/
def inputTarget (s : State) : Option Nat :=
  match fetch s with
  | .ok (.input a) =>
    match writeAddr s a with
    | .ok n => some n
    | .error _ => none
  | _ => none

/-- The value of the `output` at `pc`, where there is one and its evaluate phase raises no fault. -/
def outputValue (s : State) : Option Word :=
  match fetch s with
  | .ok (.output a) =>
    match readOp s a with
    | .ok v => some v
    | .error _ => none
  | _ => none

/-- Rule R119. -/
def condition (s : State) : Condition :=
  match s.status with
  | .halted => .halted
  | .faulted => .faulted
  | .running =>
    if (inputTarget s).isSome && s.inq.isEmpty && !s.inClosed then .waitIn
    else if (outputValue s).isSome && !outCanPush s then .waitOut
    else .run

/-! ### The moves (rule R114) -/

/-- `H-send(v)`: enabled when the inbound channel is open and has room. -/
def hostSend (v : Word) (s : State) : Option State :=
  if !s.inClosed && hasRoom s.inCapacity s.inq.length then some { s with inq := s.inq ++ [v] } else none

/-- `H-close-in`: always enabled. -/
def hostCloseIn (s : State) : State := { s with inClosed := true }

/-- `H-recv`: the host takes the head of `outq`. -/
def hostRecv (s : State) : Option (Word × State) :=
  match s.outq with
  | [] => none
  | v :: rest => some (v, { s with outq := rest })

/-- `H-recv-direct` (rule R116): with OUT_CAPACITY = 0 the machine's `output` and the host's receive are one transition. -/
def hostRecvDirect (s : State) : Option (Word × State) :=
  if s.outCapacity = .bounded 0 ∧ s.status = .running then
    match outputValue s with
    | none => none
    | some v => some (v, advance 1 { s with outLog := s.outLog ++ [v] })
  else none

/-- `H-reset`: a fresh construction; nothing of the old state survives (spec/70_reset_and_hazards.md rule R185). -/
def hostReset (program : List Word) (ch : Channels) (_ : State) : State := State.new program ch

/-! ### The observations (rules R36, R114) -/

/-- The numeric code of a run state (spec/10_state.md rule R25). -/
def Status.code : Status → Nat
  | .running => 0
  | .halted => 1
  | .faulted => 2

/-- The numeric code of a fault cause (spec/10_state.md rule R26). -/
def Cause.code : Cause → Nat
  | .none => 0
  | .invalidAddress => 1
  | .illegalOpcode => 2
  | .illegalMode => 3
  | .inputClosed => 4

/-- `H-status`: always enabled. -/
def hostStatus (s : State) : Status × Cause × Word := (s.status, s.cause, s.faultInfo)

/-- `H-eos`: the outbound stream has ended and every value of it was taken. -/
def hostEos (s : State) : Bool := s.outClosed && s.outq.isEmpty

/-- A run has ended (spec/70_reset_and_hazards.md rule R189). -/
def ended (s : State) : Bool := decide (s.status ≠ .running)

/-- `H-inspect` of `pc` and `rb`: only once the run has ended. -/
def hostInspectRegs (s : State) : Option (Word × Word) := if ended s then some (s.pc, s.rb) else none

/-- `H-inspect` of the memory word at `a`: only once the run has ended, and only at an address that exists. -/
def hostInspectMem (s : State) (a : Word) : Option Word :=
  if ended s then
    match memRead s a with
    | .ok v => some v
    | .error _ => none
  else none

/-! ### Interleaving (spec/00_scope.md rule R10) -/

/-- One atomic transition of machine and host, short of a reset. -/
inductive Move where
  | step
  | send (v : Word)
  | closeIn
  | recv
  | recvDirect
  deriving DecidableEq, Repr

/-- The values that crossed the channels' ends: sent by the host, consumed by `input`, emitted by `output`, received by
the host (rule R115). -/
structure Traffic where
  sent : List Word
  consumed : List Word
  emitted : List Word
  received : List Word
  deriving DecidableEq, Repr

/-- No value. -/
def Traffic.nothing : Traffic := ⟨[], [], [], []⟩

/-- Earlier traffic, then later traffic. -/
def Traffic.followedBy (x y : Traffic) : Traffic :=
  ⟨x.sent ++ y.sent, x.consumed ++ y.consumed, x.emitted ++ y.emitted, x.received ++ y.received⟩

/-- What the enabled machine step at `s` consumes and emits, read off the instruction at `pc`. -/
def stepTraffic (s : State) : Traffic :=
  { sent := [], consumed := if (inputTarget s).isSome then s.inq.take 1 else [],
    emitted := (outputValue s).toList, received := [] }

/-- The state after a move and the values it carried; `none` where the move is not enabled. A stalled instruction has
no step (spec/40_fetch_dispatch.md rule R88). -/
def fire : Move → State → Option (State × Traffic)
  | .step, s =>
    if condition s = .run then
      match step s with
      | .next t => some (t, stepTraffic s)
      | .fault _ => none
      | .refused _ => none
    else none
  | .send v, s => (hostSend v s).map fun t => (t, { Traffic.nothing with sent := [v] })
  | .closeIn, s => some (hostCloseIn s, Traffic.nothing)
  | .recv, s => (hostRecv s).map fun (v, t) => (t, { Traffic.nothing with received := [v] })
  | .recvDirect, s => (hostRecvDirect s).map fun (v, t) => (t, { Traffic.nothing with emitted := [v], received := [v] })

/-- A sequence of moves. -/
def fireAll : List Move → State → Option (State × Traffic)
  | [], s => some (s, Traffic.nothing)
  | m :: ms, s =>
    match fire m s with
    | none => none
    | some (t, x) =>
      match fireAll ms t with
      | none => none
      | some (u, y) => some (u, x.followedBy y)

/-! ### The signals (spec/42_io.md rule R118, informative) -/

/-- The outputs of the sketched interface. `outData` is absent while nothing is offered: the spec gives it no value then. -/
structure Ports where
  inReady : Bool
  outValid : Bool
  outData : Option Word
  outClosed : Bool
  status : BitVec 2
  cause : BitVec 3
  faultInfo : Word
  deriving DecidableEq, Repr

/-- The word offered to the host: the head of `outq`, or with OUT_CAPACITY = 0 the value being output. -/
def offered (s : State) : Option Word :=
  match hostRecv s with
  | some (v, _) => some v
  | none => (hostRecvDirect s).map (·.1)

/-- The output signals as a function of the state. -/
def ports (s : State) : Ports where
  inReady := hasRoom s.inCapacity s.inq.length
  outValid := (offered s).isSome
  outData := offered s
  outClosed := s.outClosed
  status := BitVec.ofNat 2 s.status.code
  cause := BitVec.ofNat 3 s.cause.code
  faultInfo := s.faultInfo

end Sys2Proof.Machine
end

