-- ==== Sys2Proof/Machine/Network.lean ====
section
/-! DEFINITION. Any number of machines with outbound channels wired to inbound channels (spec/60_exceptions.md rule
R166): pipelines, rings, two machines that feed each other, and machines whose ends the host holds. A connection is ONE
FIFO; it is stored once, with the machine that feeds it, and `Network.machine` shows it to the machine it feeds. -/

namespace Sys2Proof.Machine

/-- A connection: the outbound channel of machine `source` is the inbound channel of machine `sink`. -/
structure Wire where
  source : Nat
  sink : Nat
  deriving DecidableEq, Repr

/-- The machines by number (rule R166 gives them no identifiers) and their connections. The inbound fields of a machine
that is the sink of a wire are not looked at; every other field is the machine's own. -/
structure Network where
  machines : List State
  wires : List Wire
  deriving DecidableEq, Repr

/-- A legal wiring: "channel output of one feeding channel input of another". Every end exists, no outbound channel and
no inbound channel is used twice, and no machine feeds itself. -/
abbrev Network.wired (net : Network) : Prop :=
  (∀ w ∈ net.wires, w.source < net.machines.length ∧ w.sink < net.machines.length ∧ w.source ≠ w.sink) ∧
  net.wires.Pairwise fun v w => v.source ≠ w.source ∧ v.sink ≠ w.sink

/-- The machine that feeds machine `j`, where its inbound channel is wired. -/
def Network.feeder (net : Network) (j : Nat) : Option Nat :=
  (net.wires.find? fun w => w.sink == j).map (·.source)

/-- The outbound channel of machine `i` is wired. -/
def Network.feeds (net : Network) (i : Nat) : Bool := net.wires.any fun w => w.source == i

/-- `B.inq` is `A.outq`, `B.in_closed` is `A.out_closed`, the capacity is A's OUT_CAPACITY (rule R166). -/
def withInbound (a b : State) : State :=
  { b with inq := a.outq, inClosed := a.outClosed, inCapacity := a.outCapacity }

/-- The complete state of machine `j`, a wired inbound channel seen as the feeder's outbound channel. -/
def Network.machine (net : Network) (j : Nat) : Option State :=
  match net.feeder j with
  | none => net.machines[j]?
  | some i => net.machines[i]?.bind fun a => net.machines[j]?.map (withInbound a)

/-- The first `n` values taken from the outbound queue. -/
def dropOut (n : Nat) (s : State) : State := { s with outq := s.outq.drop n }

/-- The network once machine `k`, as `Network.machine` shows it, has become `t` and has consumed `n` values: a wired
inbound channel loses them where it is stored. -/
def Network.store (net : Network) (k : Nat) (t : State) (n : Nat) : Network :=
  { net with machines :=
      match net.feeder k with
      | none => net.machines.set k t
      | some i => (net.machines.set k t).modify i (dropOut n) }

/-- One transition of the network: a move of machine `k` or of the host at machine `k`, or the joint transition of the
`output` of `i` and the `input` of `j` over an unbuffered connection. -/
inductive NetMove where
  | move (k : Nat) (m : Move)
  | transfer (i j : Nat)
  deriving DecidableEq, Repr

/-- Machine `l` takes part in the transition. -/
def NetMove.moves (l : Nat) : NetMove → Bool
  | .move k _ => k == l
  | .transfer i j => i == l || j == l

/-- The host holds the end of the channel that the move needs: an end that is wired belongs to the other machine. -/
def Network.allows (net : Network) (k : Nat) : Move → Bool
  | .step => true
  | .send _ => (net.feeder k).isNone
  | .closeIn => (net.feeder k).isNone
  | .recv => !net.feeds k
  | .recvDirect => !net.feeds k

/-- The values that crossed the channels' ends, machine by machine, in order of transition. -/
abbrev NetTraffic := List (Nat × Traffic)

/-- What `input` of machine `j` consumed, in order. -/
def consumedBy (j : Nat) (x : NetTraffic) : List Word := x.flatMap fun e => if e.1 = j then e.2.consumed else []

/-- What `output` of machine `i` emitted, in order. -/
def emittedBy (i : Nat) (x : NetTraffic) : List Word := x.flatMap fun e => if e.1 = i then e.2.emitted else []

/-- The state of the receiving machine after the joint transition that brings it `v`: it waited at an `input` (rule
R116). -/
def receiveDirect (v : Word) (b : State) : Option State :=
  if condition b = .waitIn then
    match step { b with inq := [v] } with
    | .next t => some t
    | .fault _ => none
    | .refused _ => none
  else none

/-- The network after a transition and the values it carried; `none` where it is not enabled. Machines step in any
interleaving, so every machine's move is a transition of the network. -/
def fireNet : NetMove → Network → Option (Network × NetTraffic)
  | .move k m, net =>
    match net.machine k with
    | none => none
    | some s =>
      if net.allows k m then
        match fire m s with
        | none => none
        | some (t, x) => some (net.store k t x.consumed.length, [(k, x)])
      else none
  | .transfer i j, net =>
    if (⟨i, j⟩ : Wire) ∈ net.wires then
      match net.machine i, net.machine j with
      | some a, some b =>
        match hostRecvDirect a with
        | none => none
        | some (v, a') =>
          match receiveDirect v b with
          | none => none
          | some b' =>
            some ((net.store i a' 0).store j b' 0,
              [(i, { Traffic.nothing with emitted := [v] }), (j, { Traffic.nothing with consumed := [v] })])
      | _, _ => none
    else none

/-- A sequence of transitions. -/
def fireNetAll : List NetMove → Network → Option (Network × NetTraffic)
  | [], net => some (net, [])
  | m :: ms, net =>
    match fireNet m net with
    | none => none
    | some (net', x) =>
      match fireNetAll ms net' with
      | none => none
      | some (net'', y) => some (net'', x ++ y)

/-- A network of fresh machines (rule R180); what the host binds to a wired inbound channel is not looked at. -/
def Network.new (programs : List (List Word × Channels)) (wires : List Wire) : Network :=
  ⟨programs.map fun p => State.new p.1 p.2, wires⟩

/-- Machine `k` constructed afresh: "no common start: each starts at its own reset". Its connections stay. -/
def Network.resetMachine (net : Network) (k : Nat) (program : List Word) (ch : Channels) : Network :=
  { net with machines := net.machines.set k (State.new program ch) }

end Sys2Proof.Machine
end

