-- ==== Sys2Proof/Safety.lean ====
section
/-! DEFINITION. The terms the statements use: which operands resolve and to what, the invariant of a machine, and what a
step leaves as it was. -/

namespace Sys2Proof.Machine

/-- The address a read operand names, where it names one. -/
def readAddress (s : State) : ReadOperand → Option Word
  | .positional raw => some raw
  | .immediate _ => none
  | .relative raw => some (relativeAddr s raw)

/-- A read operand resolves: the address it names, if any, is not negative (spec/60_exceptions.md rule R152). -/
def readable (s : State) (a : ReadOperand) : Bool :=
  match readAddress s a with
  | none => true
  | some x => decide (0 ≤ x.toInt)

/-- The value of a read operand (rule R70). -/
def readValue (s : State) : ReadOperand → Word
  | .positional raw => s.mem.read raw.toNat
  | .immediate raw => raw
  | .relative raw => s.mem.read (relativeAddr s raw).toNat

/-- The address a write operand names (rules R66, R70). -/
def writeAddress (s : State) : WriteOperand → Word
  | .positional raw => raw
  | .relative raw => relativeAddr s raw

/-- A write operand resolves: its address is not negative (spec/60_exceptions.md rule R152). -/
def writable (s : State) (c : WriteOperand) : Bool := decide (0 ≤ (writeAddress s c).toInt)

/-- The state after the fault entry of rule R158. -/
def faultedWith (cause : Cause) (info : Word) (s : State) : State :=
  { s with status := .faulted, cause := cause, faultInfo := info, outClosed := true }

/-- A queue of this length fits a channel of this capacity (spec/10_state.md rule R30). -/
def fitsCapacity (c : Capacity) (len : Nat) : Bool :=
  match c with
  | .bounded n => decide (len ≤ n)
  | .unbounded => true

/-- The detail word says what its cause says it says (spec/10_state.md rule R27). -/
def DetailFits (s : State) : Prop :=
  match s.cause with
  | .none => s.faultInfo = 0
  | .invalidAddress => s.faultInfo.toInt < 0
  | .illegalOpcode => 0 ≤ s.pc.toInt ∧ s.faultInfo = s.mem.read s.pc.toNat
  | .illegalMode => 0 ≤ s.pc.toInt ∧ s.faultInfo = s.mem.read s.pc.toNat
  | .inputClosed => s.faultInfo = 0 ∧ s.inq = [] ∧ s.inClosed = true

/-- The invariant of one machine under its own steps and its host's moves. -/
structure MachineInv (s : State) : Prop where
  /-- The memory is in canonical form. -/
  memWf : s.mem.wf
  /-- `out_closed` exactly when the run has ended (R30). -/
  closedIffEnded : s.outClosed = true ↔ s.status ≠ .running
  /-- `cause != None` exactly when Faulted (R26). -/
  causeIffFaulted : s.cause ≠ .none ↔ s.status = .faulted
  /-- The detail of the fault (R27). -/
  detail : DetailFits s
  /-- `outq` is never longer than OUT_CAPACITY (R30). -/
  outFits : fitsCapacity s.outCapacity s.outq.length = true
  /-- What the host has not taken yet is the end of `out_log` (R33, R115). -/
  outqIsTail : s.outq <:+ s.outLog
  /-- IN_CAPACITY is at least 1 (R4). -/
  inCapacityLegal : s.inCapacity ≠ .bounded 0

/-- The channels and their logs are as they were. -/
def SameChannels (s t : State) : Prop :=
  t.inq = s.inq ∧ t.inClosed = s.inClosed ∧ t.outq = s.outq ∧ t.outLog = s.outLog ∧
    t.inCapacity = s.inCapacity ∧ t.outCapacity = s.outCapacity

/-- The registers that only a fault or a halt writes are as they were. -/
def SameControl (s t : State) : Prop :=
  t.status = s.status ∧ t.cause = s.cause ∧ t.faultInfo = s.faultInfo ∧ t.outClosed = s.outClosed

/-- `t` is `s` after a fault entry: everything but the four registers of rule R158 is as it was. -/
def FaultEntered (s t : State) : Prop := t = faultedWith t.cause t.faultInfo s ∧ t.cause ≠ .none

/-- Every word of memory reads as it did. -/
def SameMemory (s t : State) : Prop := ∀ x, t.mem.read x = s.mem.read x

/-- Every word of memory but the one at `n` reads as it did. -/
def SameMemoryBut (n : Nat) (s t : State) : Prop := ∀ x, x ≠ n → t.mem.read x = s.mem.read x

/-- The instructions that store to memory (spec/10_state.md rule R20). -/
def stores : Instr → Bool
  | .add _ _ _ => true
  | .mul _ _ _ => true
  | .input _ => true
  | .output _ => false
  | .jumpIfTrue _ _ => false
  | .jumpIfFalse _ _ => false
  | .lessThan _ _ _ => true
  | .equals _ _ _ => true
  | .adjustRelativeBase _ => false
  | .halt => false

/-- What a rule of format F3 says (spec/41_arithmetic.md rules R100, R101; spec/44_compare.md rules R130, R131): the
words of the instruction `mk a b c`, its effect where all three operands resolve, and the fault of the first that does
not. -/
def BinaryRule (mk : ReadOperand → ReadOperand → WriteOperand → Instr) (opcode : Nat) (f : Word → Word → Word) : Prop :=
  ∀ (a b : ReadOperand) (c : WriteOperand) (s : State),
    encode (mk a b c) = [BitVec.ofNat 64 (opcode + 100 * a.mode.toDigit + 1000 * b.mode.toDigit + 10000 * c.mode.toDigit),
      a.raw, b.raw, c.raw] ∧
    (readable s a = true → readable s b = true → writable s c = true →
      exec (mk a b c) s = .next { s with
        mem := s.mem.write (writeAddress s c).toNat (f (readValue s a) (readValue s b))
        pc := wrap64 (s.pc.toInt + 4) }) ∧
    (readable s a = false → ∃ x, readAddress s a = some x ∧
      exec (mk a b c) s = .next (faultedWith .invalidAddress x s)) ∧
    (readable s a = true → readable s b = false → ∃ x, readAddress s b = some x ∧
      exec (mk a b c) s = .next (faultedWith .invalidAddress x s)) ∧
    (readable s a = true → readable s b = true → writable s c = false →
      exec (mk a b c) s = .next (faultedWith .invalidAddress (writeAddress s c) s))

/-- What the rule of a conditional jump says (spec/43_jumps.md rules R120, R121): operand b is resolved only when the
jump is taken, and its value, unchecked, becomes `pc`. -/
def JumpRule (mk : ReadOperand → ReadOperand → Instr) (opcode : Nat) (taken : Word → Prop) : Prop :=
  ∀ (a b : ReadOperand) (s : State),
    encode (mk a b) = [BitVec.ofNat 64 (opcode + 100 * a.mode.toDigit + 1000 * b.mode.toDigit), a.raw, b.raw] ∧
    (readable s a = true → taken (readValue s a) → readable s b = true →
      exec (mk a b) s = .next { s with pc := readValue s b }) ∧
    (readable s a = true → ¬ taken (readValue s a) →
      exec (mk a b) s = .next { s with pc := wrap64 (s.pc.toInt + 3) }) ∧
    (readable s a = false → ∃ x, readAddress s a = some x ∧
      exec (mk a b) s = .next (faultedWith .invalidAddress x s)) ∧
    (readable s a = true → taken (readValue s a) → readable s b = false → ∃ x, readAddress s b = some x ∧
      exec (mk a b) s = .next (faultedWith .invalidAddress x s)) ∧
    -- the raw word of b is fetched whether or not the jump is taken
    (s.status = .running → memRead s s.pc = .ok (mk a b).header.word → 0 ≤ (rawAddr s 1).toInt →
      (rawAddr s 2).toInt < 0 → step s = .next (faultedWith .invalidAddress (rawAddr s 2) s)) ∧
    -- a negative target is no fault of the jump; the next fetch raises it
    (s.status = .running → readable s a = true → taken (readValue s a) → readable s b = true →
      (readValue s b).toInt < 0 → ∃ t, exec (mk a b) s = .next t ∧
        step t = .next (faultedWith .invalidAddress (readValue s b) t))

end Sys2Proof.Machine
end

