-- ==== Sys2Proof/WellFormed.lean ====
section
/-! DEFINITION. Which words are legal instruction words, read off spec/opcode_table.json row by row (spec/30_encoding.md
rules R71, R73). It is written apart from the decoder, so that the two can be held against each other. -/

namespace Sys2Proof

/-- The role of an operand, as the table's column "operands" gives it. -/
inductive Role where
  | read
  | write
  deriving DecidableEq, Repr

/-- One row of spec/opcode_table.json: `code` is its "match", the mask being the decimal modulus 100 (rule R73). -/
structure OpcodeRow where
  mnemonic : String
  code : Nat
  roles : List Role
  deriving DecidableEq, Repr

/-- The ten rows, in the table's order. -/
def opcodeTable : List OpcodeRow :=
  [⟨"add", 1, [.read, .read, .write]⟩,
   ⟨"mul", 2, [.read, .read, .write]⟩,
   ⟨"input", 3, [.write]⟩,
   ⟨"output", 4, [.read]⟩,
   ⟨"jump-if-true", 5, [.read, .read]⟩,
   ⟨"jump-if-false", 6, [.read, .read]⟩,
   ⟨"less-than", 7, [.read, .read, .write]⟩,
   ⟨"equals", 8, [.read, .read, .write]⟩,
   ⟨"adjust-relative-base", 9, [.read]⟩,
   ⟨"halt", 99, []⟩]

/-- The row a word selects: `w >= 0` and `w mod 100 = match` (rule R73). -/
def rowOf (w : Word) : Option OpcodeRow :=
  if w.toInt < 0 then none else opcodeTable.find? fun r => r.code == w.toNat % 100

/-- The digits a mode field may hold: the table's "legal" sets (rules R65, R66). -/
def Role.legalDigits : Role → List Nat
  | .read => [0, 1, 2]
  | .write => [0, 2]

/-- Every mode digit of the operands from decimal position `k` on is in its legal set. -/
def legalModes (n : Nat) : List Role → Nat → Bool
  | [], _ => true
  | r :: rs, k => r.legalDigits.contains (n / 10 ^ k % 10) && legalModes n rs (k + 1)

/-- A legal instruction word: it selects a row, and every examined mode digit is legal (rules R67, R73). -/
def wellFormedWord (w : Word) : Bool :=
  match rowOf w with
  | none => false
  | some r => legalModes w.toNat r.roles 2

end Sys2Proof
end

