-- ==== Sys2Proof/Certificates/Slice0/Obligations.lean ====
section
/-! DEFINITION. The statements for the provers, from the numbered rules of spec/. Each docstring names its rule. -/

open Sys2Proof Sys2Proof.Machine

/-! ### Words and arithmetic -/

/-- Rule R6 (the spec's notation for its decisions D1, D2): `wrap64(z)` is the one integer in range congruent to `z`,
is `z` itself when `z` is in range, and is what a two's-complement adder and multiplier leave. -/
def Obligations.Wrap64IsTheUniqueCongruentWord : Prop :=
  (∀ z : Int, -(2 ^ 63) ≤ (wrap64 z).toInt ∧ (wrap64 z).toInt ≤ 2 ^ 63 - 1 ∧ (wrap64 z).toInt % 2 ^ 64 = z % 2 ^ 64) ∧
  (∀ z v : Int, -(2 ^ 63) ≤ v → v ≤ 2 ^ 63 - 1 → v % 2 ^ 64 = z % 2 ^ 64 → v = (wrap64 z).toInt) ∧
  (∀ z : Int, -(2 ^ 63) ≤ z → z ≤ 2 ^ 63 - 1 → (wrap64 z).toInt = z) ∧
  (∀ x y : Word, wrap64 (x.toInt + y.toInt) = x + y ∧ wrap64 (x.toInt * y.toInt) = x * y)

/-- Rule R102: sum and product are commutative, associative and distributive, also where intermediate results wrap. -/
def Obligations.WrappedArithmeticObeysTheRingLaws : Prop :=
  ∀ x y z : Word,
    wrapAdd x y = wrapAdd y x ∧ wrapMul x y = wrapMul y x ∧
    wrapAdd (wrapAdd x y) z = wrapAdd x (wrapAdd y z) ∧ wrapMul (wrapMul x y) z = wrapMul x (wrapMul y z) ∧
    wrapMul x (wrapAdd y z) = wrapAdd (wrapMul x y) (wrapMul x z)

/-! ### Encoding -/

/-- Rules R60, R63, R64, R70: reading back the words of any instruction, whatever follows them, gives that instruction,
every mode and every raw operand word kept, and the words that follow. -/
def Obligations.DecodeOfEncodeIsTheInstruction : Prop :=
  ∀ (i : Instr) (rest : List Word), decode (encode i ++ rest) = .ok (i, rest)

/-- Rule R72, with the spec's decisions D4, D5, D6, D8, read against the table of rule R73: the decoder against the
opcode table. No row: IllegalOpcode. A row and an illegal mode digit: IllegalMode. Else a header of that row's arity
whose word has exactly the examined digits of `w`. -/
def Obligations.DecodeWordFollowsTheOpcodeMap : Prop :=
  ∀ w : Word,
    (rowOf w = none → decodeWord w = .error .illegalOpcode) ∧
    (∀ r, rowOf w = some r → legalModes w.toNat r.roles 2 = false → decodeWord w = .error .illegalMode) ∧
    (∀ r, rowOf w = some r → legalModes w.toNat r.roles 2 = true →
      ∃ h, decodeWord w = .ok h ∧ h.arity = r.roles.length ∧ h.toNat = w.toNat % 10 ^ (h.arity + 2)) ∧
    decodeRaise w .illegalOpcode = ⟨.illegalOpcode, w⟩ ∧ decodeRaise w .illegalMode = ⟨.illegalMode, w⟩

/-- Rule R67 (the spec's decision D7): digits above the examined ones change nothing, and the word with them set to 0
decodes the same. -/
def Obligations.IgnoredDigitsDoNotMatter : Prop :=
  (∀ (w w' : Word) (h : Header), decodeWord w = .ok h → 0 ≤ w'.toInt →
    w'.toNat % 10 ^ (h.arity + 2) = w.toNat % 10 ^ (h.arity + 2) → decodeWord w' = .ok h) ∧
  (∀ (w : Word) (h : Header), decodeWord w = .ok h →
    decodeWord h.word = .ok h ∧ h.word.toNat = w.toNat % 10 ^ (h.arity + 2))

/-- Words of spec/95_test_vectors.md section 2.2, written out from the encodings. -/
def Obligations.WordsOfTheSpecDecode : Prop :=
  decodeWord 1002 = .ok (.mul .positional .immediate .positional) ∧
  decodeWord 21202 = .ok (.mul .relative .immediate .relative) ∧
  decodeWord 203 = .ok (.input .relative) ∧
  decodeWord 2105 = .ok (.jumpIfTrue .immediate .relative) ∧
  decodeWord 30099 = .ok .halt ∧
  decodeWord 11101 = .error .illegalMode ∧
  decodeWord 12345 = .error .illegalOpcode ∧
  decodeWord (-1) = .error .illegalOpcode

/-! ### Memory -/

/-- Rule R41: a read at a negative address raises InvalidAddress of it; any other read answers the stored word, 0 where
none is listed. -/
def Obligations.MemoryReadAnswersTheStoredWord : Prop :=
  ∀ (s : State) (a : Word),
    (a.toInt < 0 → memRead s a = .error ⟨.invalidAddress, a⟩) ∧
    (0 ≤ a.toInt → memRead s a = .ok (s.mem.read a.toNat)) ∧
    (0 ≤ a.toInt → (∀ c ∈ s.mem, c.1 ≠ a.toNat) → memRead s a = .ok 0)

/-- Rule R42: a write at a negative address raises InvalidAddress of it; any other write makes that address read as the
word written, leaves every other address as it was, and changes nothing but memory. -/
def Obligations.MemoryWriteThenRead : Prop :=
  ∀ (s : State) (a v : Word),
    (a.toInt < 0 → memWrite s a v = .error ⟨.invalidAddress, a⟩) ∧
    (0 ≤ a.toInt → ∃ t, memWrite s a v = .ok t ∧ memRead t a = .ok v ∧
      (∀ b, b ≠ a → memRead t b = memRead s b) ∧ t = { s with mem := t.mem })

/-- Derived from rules R28, R43 and the canonical form of this model's memory (notes/assumptions/1.md): memories that
read the same at every address are the same state. -/
def Obligations.CanonicalMemoriesThatReadTheSameAreEqual : Prop :=
  ∀ m n : Memory, m.wf → n.wf → (∀ a, m.read a = n.read a) → m = n

/-! ### Reset and the invariant -/

/-- Rule R34 (with the spec's decision D23): every row of the table of reset values, for any program and any inbound
channel bound at construction. -/
def Obligations.ResetIsAFreshConstruction : Prop :=
  ∀ (p : List Word) (ch : Channels),
    (State.new p ch).pc = 0 ∧ (State.new p ch).rb = 0 ∧
    (∀ a, a < p.length → (State.new p ch).mem.read a = p.getD a 0) ∧
    (∀ a, p.length ≤ a → (State.new p ch).mem.read a = 0) ∧
    (State.new p ch).status = .running ∧ (State.new p ch).cause = .none ∧ (State.new p ch).faultInfo = 0 ∧
    (State.new p ch).inq = ch.inq ∧ (State.new p ch).inClosed = ch.inClosed ∧
    (State.new p ch).outq = [] ∧ (State.new p ch).outClosed = false ∧ (State.new p ch).outLog = []

/-- The invariant holds after every reset whose program fits the address space, and at `State.reset`, whose channel
capacities are the model's choice (notes/assumptions/4.md). -/
def Obligations.ResetMeetsTheInvariant : Prop :=
  (∀ (p : List Word) (ch : Channels), p.length ≤ addressLimit → ch.inCapacity ≠ .bounded 0 → MachineInv (State.new p ch)) ∧
  MachineInv State.reset

/-- Every step keeps the invariant: canonical memory; `out_closed` exactly when ended; `cause` set exactly when Faulted,
with the detail it promises; `outq` within its capacity and the tail of `out_log`. -/
def Obligations.EveryStepKeepsTheInvariant : Prop :=
  ∀ s t : State, MachineInv s → step s = .next t → MachineInv t

/-- So does every transition of machine and host. -/
def Obligations.EveryMoveKeepsTheInvariant : Prop :=
  ∀ (m : Move) (s t : State) (x : Traffic), MachineInv s → fire m s = some (t, x) → MachineInv t

/-! ### Fetch and step -/

/-- Rule R80: a step of a Running machine executes the instruction its words decode to. -/
def Obligations.StepRunsTheDecodedInstruction : Prop :=
  ∀ (s : State) (w : Word) (h : Header) (raws : List Word),
    s.status = .running → memRead s s.pc = .ok w → decodeWord w = .ok h → fetchRaws s h.arity = .ok raws →
    fetch s = .ok (h.instr raws) ∧ step s = exec (h.instr raws) s

/-- Rules R54, R60, R80: an instruction whose words stand at `pc` is the one executed. -/
def Obligations.PlacedInstructionIsExecuted : Prop :=
  ∀ (i : Instr) (s : State),
    s.status = .running → 0 ≤ s.pc.toInt → s.pc.toNat + (encode i).length ≤ addressLimit →
    (∀ k, k < (encode i).length → s.mem.read (s.pc.toNat + k) = (encode i).getD k 0) →
    step s = exec i s

/-- Rule R81: the instruction fetch is a read of current memory at `pc`; a negative `pc` raises InvalidAddress of it,
and a word never written is 0 and raises IllegalOpcode(0). -/
def Obligations.InstructionFetchIsAMemoryRead : Prop :=
  ∀ s : State, s.status = .running →
    (s.pc.toInt < 0 → step s = .next (faultedWith .invalidAddress s.pc s)) ∧
    (0 ≤ s.pc.toInt → memRead s s.pc = .ok (s.mem.read s.pc.toNat) ∧
      (∀ e, decodeWord (s.mem.read s.pc.toNat) = .error e →
        step s = .next (takeFault (decodeRaise (s.mem.read s.pc.toNat) e) s)) ∧
      (∀ h raws, decodeWord (s.mem.read s.pc.toNat) = .ok h → fetchRaws s h.arity = .ok raws →
        step s = exec (h.instr raws) s)) ∧
    (0 ≤ s.pc.toInt → (∀ c ∈ s.mem, c.1 ≠ s.pc.toNat) → step s = .next (faultedWith .illegalOpcode 0 s))

/-- Rules R82, R153, R154, R157: the opcode is checked before the modes and both before any operand word; the operand
words are fetched lowest first, and the first address that wraps negative is the fault's detail. -/
def Obligations.FetchFaultsComeInOrder : Prop :=
  ∀ s : State, s.status = .running → 0 ≤ s.pc.toInt →
    (decodeWord (s.mem.read s.pc.toNat) = .error .illegalOpcode →
      step s = .next (faultedWith .illegalOpcode (s.mem.read s.pc.toNat) s)) ∧
    (decodeWord (s.mem.read s.pc.toNat) = .error .illegalMode →
      step s = .next (faultedWith .illegalMode (s.mem.read s.pc.toNat) s)) ∧
    (∀ h i, decodeWord (s.mem.read s.pc.toNat) = .ok h → 1 ≤ i → i ≤ h.arity →
      (∀ j, 1 ≤ j → j < i → 0 ≤ (rawAddr s j).toInt) → (rawAddr s i).toInt < 0 →
      step s = .next (faultedWith .invalidAddress (rawAddr s i) s))

/-- Rules R25, R80, R160: the machine has a step exactly while Running. That a stalled instruction shows as a next state
equal to the old one, and the names of the two stops, are the model's choices (notes/assumptions/2.md and 3.md). -/
def Obligations.StepAnswersExactlyWhileRunning : Prop :=
  ∀ s : State,
    (s.status = .running → ∃ t, step s = .next t) ∧
    (s.status = .halted → step s = .fault .halted) ∧
    (s.status = .faulted → step s = .fault .faulted)

/-! ### Operands -/

/-- Rule R83 (the wrap is the spec's decision D2): the three modes of a read operand, and when each faults. -/
def Obligations.ReadOperandsResolveThroughTheirMode : Prop :=
  ∀ (s : State) (raw : Word),
    (0 ≤ raw.toInt → readOp s (.positional raw) = .ok (s.mem.read raw.toNat)) ∧
    (raw.toInt < 0 → readOp s (.positional raw) = .error ⟨.invalidAddress, raw⟩) ∧
    readOp s (.immediate raw) = .ok raw ∧
    (0 ≤ (wrap64 (raw.toInt + s.rb.toInt)).toInt →
      readOp s (.relative raw) = .ok (s.mem.read (wrap64 (raw.toInt + s.rb.toInt)).toNat)) ∧
    ((wrap64 (raw.toInt + s.rb.toInt)).toInt < 0 →
      readOp s (.relative raw) = .error ⟨.invalidAddress, wrap64 (raw.toInt + s.rb.toInt)⟩)

/-- Rule R84 (the wrap is the spec's decision D2): the two modes of a write operand; the raw operand itself is the
address in positional mode. -/
def Obligations.WriteOperandsNameTheirAddress : Prop :=
  ∀ (s : State) (raw : Word),
    (0 ≤ raw.toInt → writeAddr s (.positional raw) = .ok raw.toNat) ∧
    (raw.toInt < 0 → writeAddr s (.positional raw) = .error ⟨.invalidAddress, raw⟩) ∧
    (0 ≤ (wrap64 (raw.toInt + s.rb.toInt)).toInt →
      writeAddr s (.relative raw) = .ok (wrap64 (raw.toInt + s.rb.toInt)).toNat) ∧
    ((wrap64 (raw.toInt + s.rb.toInt)).toInt < 0 →
      writeAddr s (.relative raw) = .error ⟨.invalidAddress, wrap64 (raw.toInt + s.rb.toInt)⟩)

/-! ### The instructions -/

/-- Rule R100 (the wrap of the sum is the spec's decision D1, the order of its checks D11). -/
def Obligations.AddStoresTheWrappedSum : Prop :=
  BinaryRule .add 1 fun x y => wrap64 (x.toInt + y.toInt)

/-- Rule R101 (the wrap of the product is the spec's decision D1, the order of its checks D11). -/
def Obligations.MulStoresTheWrappedProduct : Prop :=
  BinaryRule .mul 2 fun x y => wrap64 (x.toInt * y.toInt)

/-- Rule R110: `input` with a value to read completes; the oldest value is stored and removed. -/
def Obligations.InputStoresTheOldestValue : Prop :=
  ∀ (a : WriteOperand) (s : State) (v : Word) (rest : List Word),
    encode (.input a) = [BitVec.ofNat 64 (3 + 100 * a.mode.toDigit), a.raw] ∧
    (writable s a = true → s.inq = v :: rest →
      exec (.input a) s = .next { s with
        inq := rest
        mem := s.mem.write (writeAddress s a).toNat v
        pc := wrap64 (s.pc.toInt + 2) })

/-- Rules R110, R155, R157: a negative target faults before the channel is looked at; else an empty, closed channel
raises InputClosed(0); else an empty, open one has no step. That `exec` then answers the state it was given is the
model's choice (notes/assumptions/2.md). -/
def Obligations.InputWithNothingToStore : Prop :=
  ∀ (a : WriteOperand) (s : State),
    (writable s a = false → exec (.input a) s = .next (faultedWith .invalidAddress (writeAddress s a) s)) ∧
    (writable s a = true → s.inq = [] → s.inClosed = true →
      exec (.input a) s = .next (faultedWith .inputClosed 0 s)) ∧
    (writable s a = true → s.inq = [] → s.inClosed = false → exec (.input a) s = .next s) ∧
    (s.status = .running → fetch s = .ok (.input a) → writable s a = true → s.inq = [] → s.inClosed = false →
      condition s = .waitIn ∧ fire .step s = none)

/-- Rules R111, R113: `output` with room completes; the value joins the end of `outq` and of `out_log`. A negative
source address faults whatever the room. -/
def Obligations.OutputEmitsItsOperand : Prop :=
  ∀ (a : ReadOperand) (s : State),
    encode (.output a) = [BitVec.ofNat 64 (4 + 100 * a.mode.toDigit), a.raw] ∧
    (readable s a = true → (∀ n, s.outCapacity = .bounded n → s.outq.length < n) →
      exec (.output a) s = .next { s with
        outq := s.outq ++ [readValue s a]
        outLog := s.outLog ++ [readValue s a]
        pc := wrap64 (s.pc.toInt + 2) }) ∧
    (readable s a = false → ∃ x, readAddress s a = some x ∧
      exec (.output a) s = .next (faultedWith .invalidAddress x s))

/-- Rules R88, R111: `output` with no room has no step. That `exec` then answers the state it was given is the model's
choice (notes/assumptions/2.md). -/
def Obligations.OutputWithoutRoomWaits : Prop :=
  ∀ (a : ReadOperand) (s : State) (n : Nat),
    readable s a = true → s.outCapacity = .bounded n → n ≤ s.outq.length →
    exec (.output a) s = .next s ∧
    (s.status = .running → fetch s = .ok (.output a) → condition s = .waitOut ∧ fire .step s = none)

/-- Rule R120 (the target is resolved only when taken, decision D13, and not checked, decision D32). -/
def Obligations.JumpIfTrueGoesWhereItsOperandSays : Prop :=
  JumpRule .jumpIfTrue 5 fun v => v ≠ 0

/-- Rule R121 (the target is resolved only when taken, decision D13, and not checked, decision D32). -/
def Obligations.JumpIfFalseGoesWhereItsOperandSays : Prop :=
  JumpRule .jumpIfFalse 6 fun v => v = 0

/-- Rule R130. -/
def Obligations.LessThanStoresZeroOrOne : Prop :=
  BinaryRule .lessThan 7 fun x y => if x.toInt < y.toInt then 1 else 0

/-- Rule R131. -/
def Obligations.EqualsStoresZeroOrOne : Prop :=
  BinaryRule .equals 8 fun x y => if x = y then 1 else 0

/-- Rule R140 (the wrap is the spec's decision D1): the sum wraps, the operand is read with the old `rb`, the new `rb`
is not checked; afterwards a relative access at offset k is the positional access at `rb + k`. No other instruction
changes `rb`. -/
def Obligations.AdjustRelativeBaseAddsItsOperand : Prop :=
  ∀ (a : ReadOperand) (s : State),
    encode (.adjustRelativeBase a) = [BitVec.ofNat 64 (9 + 100 * a.mode.toDigit), a.raw] ∧
    (readable s a = true → ∃ t,
      exec (.adjustRelativeBase a) s = .next t ∧
      t = { s with rb := wrap64 (s.rb.toInt + (readValue s a).toInt), pc := wrap64 (s.pc.toInt + 2) } ∧
      (∀ k, readOp t (.relative k) = readOp t (.positional (wrap64 (t.rb.toInt + k.toInt)))) ∧
      (∀ k, writeAddr t (.relative k) = writeAddr t (.positional (wrap64 (t.rb.toInt + k.toInt))))) ∧
    (readable s a = false → ∃ x, readAddress s a = some x ∧
      exec (.adjustRelativeBase a) s = .next (faultedWith .invalidAddress x s)) ∧
    (∀ i t, exec i s = .next t → t.rb ≠ s.rb → ∃ b, i = .adjustRelativeBase b)

/-- Rule R145 (that `pc` stays is the spec's decision D19): every non-negative word whose low two digits are 99 is
`halt`; it sets `status` and `out_closed` and nothing else, whatever the channels hold; no further step follows, and
no move of the host but a reset leaves Halted. -/
def Obligations.HaltEndsTheRun : Prop :=
  (∀ s : State, exec .halt s = .next { s with status := .halted, outClosed := true }) ∧
  (∀ s : State, s.status = .running → 0 ≤ s.pc.toInt → 0 ≤ (s.mem.read s.pc.toNat).toInt →
    (s.mem.read s.pc.toNat).toNat % 100 = 99 →
    step s = .next { s with status := .halted, outClosed := true }) ∧
  (∀ s t u : State, exec .halt s = .next t → step t ≠ .next u) ∧
  (∀ (s t u : State) (m : Move) (x : Traffic), exec .halt s = .next t → fire m t = some (u, x) → u.status = .halted)

/-! ### Frames -/

/-- `add`, `mul`, `less-than`, `equals`: memory but for the target word, `rb` and the channels stay, and the control
registers too unless a fault is entered, which changes nothing else. -/
def Obligations.StoringInstructionsChangeOnlyTheTargetWord : Prop :=
  ∀ (i : Instr) (a b : ReadOperand) (c : WriteOperand) (s t : State),
    (i = .add a b c ∨ i = .mul a b c ∨ i = .lessThan a b c ∨ i = .equals a b c) → exec i s = .next t →
    t.rb = s.rb ∧ SameChannels s t ∧
    ((SameControl s t ∧ SameMemoryBut (writeAddress s c).toNat s t) ∨ FaultEntered s t)

/-- `input`: memory but for the target word, `rb`, the outbound channel and `in_closed` stay; `inq` loses at most its
head, and nothing at all where a fault is entered. -/
def Obligations.InputChangesOnlyTheTargetWordAndItsQueue : Prop :=
  ∀ (a : WriteOperand) (s t : State), exec (.input a) s = .next t →
    t.rb = s.rb ∧ t.inClosed = s.inClosed ∧ t.outq = s.outq ∧ t.outLog = s.outLog ∧
    t.inCapacity = s.inCapacity ∧ t.outCapacity = s.outCapacity ∧
    ((SameControl s t ∧ SameMemoryBut (writeAddress s a).toNat s t ∧ t.inq = s.inq.tail) ∨ FaultEntered s t)

/-- `output`, the jumps, `adjust-relative-base` and `halt` store nothing: every word of memory and the inbound channel
stay; only `output` touches the outbound queue, only `adjust-relative-base` `rb`, only `halt` or a fault the control
registers. -/
def Obligations.NonStoringInstructionsKeepMemory : Prop :=
  ∀ (i : Instr) (s t : State), stores i = false → exec i s = .next t →
    SameMemory s t ∧ t.inq = s.inq ∧ t.inClosed = s.inClosed ∧
    t.inCapacity = s.inCapacity ∧ t.outCapacity = s.outCapacity ∧
    ((∃ a, i = .adjustRelativeBase a) ∨ t.rb = s.rb) ∧
    ((∃ a, i = .output a ∧ t.outq = s.outq ++ [readValue s a] ∧ t.outLog = s.outLog ++ [readValue s a]) ∨
      (t.outq = s.outq ∧ t.outLog = s.outLog)) ∧
    (SameControl s t ∨ FaultEntered s t ∨ (i = .halt ∧ t.cause = s.cause ∧ t.faultInfo = s.faultInfo ∧ t.pc = s.pc))

/-- Rules R21, R85: `pc` after an instruction is its own length further, or the target of a taken jump, or unchanged
where the instruction halts, faults or waits. -/
def Obligations.ProgramCounterMovesOnlyAsTheRulesSay : Prop :=
  ∀ (i : Instr) (s t : State), exec i s = .next t →
    t.pc = wrap64 (s.pc.toInt + i.header.arity + 1) ∨
    (∃ a b, (i = .jumpIfTrue a b ∨ i = .jumpIfFalse a b) ∧ readable s b = true ∧ t.pc = readValue s b) ∨
    (t.pc = s.pc ∧ (t.status = .halted ∨ t.status = .faulted ∨ t = s))

/-! ### Whole-machine rules -/

/-- Rule R22: `adjust-relative-base` is the only writer of `rb`. -/
def Obligations.OnlyAdjustRelativeBaseWritesRb : Prop :=
  ∀ s t : State, step s = .next t → t.rb ≠ s.rb → ∃ a, fetch s = .ok (.adjustRelativeBase a)

/-- Rules R20, R47: a step that changes memory fetched `add`, `mul`, `input`, `less-than` or `equals`, and changes one
word only. -/
def Obligations.AStepWritesAtMostOneWord : Prop :=
  ∀ (s t : State) (x y : Nat), step s = .next t →
    t.mem.read x ≠ s.mem.read x → t.mem.read y ≠ s.mem.read y →
    x = y ∧ ∃ i, fetch s = .ok i ∧ stores i = true

/-- Rules R158, R159: a step that ends Faulted has changed only `status`, `cause`, `fault_info` and `out_closed`. -/
def Obligations.FaultsArePrecise : Prop :=
  ∀ s t : State, step s = .next t → t.status = .faulted → FaultEntered s t ∧ t.outClosed = true

/-- Rules R27, R151: what each cause says, and what its detail holds. -/
def Obligations.FaultInfoHoldsTheDetail : Prop :=
  ∀ s t : State, step s = .next t → t.status = .faulted →
    (t.cause = .invalidAddress ∧ t.faultInfo.toInt < 0) ∨
    (t.cause = .illegalOpcode ∧ t.faultInfo = s.mem.read s.pc.toNat ∧ rowOf t.faultInfo = none) ∨
    (t.cause = .illegalMode ∧ t.faultInfo = s.mem.read s.pc.toNat ∧ (rowOf t.faultInfo).isSome = true ∧
      wellFormedWord t.faultInfo = false) ∨
    (t.cause = .inputClosed ∧ t.faultInfo = 0 ∧ s.inq = [] ∧ s.inClosed = true ∧ ∃ a, fetch s = .ok (.input a))

/-- Rules R88, R119: only `input` and `output` wait, each in its own way; a waiting machine has no transition of its
own. -/
def Obligations.OnlyInputAndOutputWait : Prop :=
  ∀ s : State,
    (condition s = .waitIn → fire .step s = none ∧ s.inq = [] ∧ s.inClosed = false ∧
      ∃ a, fetch s = .ok (.input a) ∧ writable s a = true) ∧
    (condition s = .waitOut → fire .step s = none ∧ outCanPush s = false ∧
      ∃ a, fetch s = .ok (.output a) ∧ readable s a = true) ∧
    (s.status = .running → condition s ≠ .waitIn → condition s ≠ .waitOut → ∃ t x, fire .step s = some (t, x))

/-- Rules R114, R119, R190: a host move lifts every wait, and is enabled; IN_CAPACITY is at least 1 (rule R4, a field of
`MachineInv`). -/
def Obligations.TheHostCanLiftEveryWait : Prop :=
  ∀ s : State,
    (condition s = .waitIn → s.inCapacity ≠ .bounded 0 → ∀ v, ∃ t, hostSend v s = some t ∧ condition t = .run) ∧
    (condition s = .waitIn → condition (hostCloseIn s) = .run ∧
      step (hostCloseIn s) = .next (faultedWith .inputClosed 0 (hostCloseIn s))) ∧
    (condition s = .waitOut → s.outCapacity ≠ .bounded 0 → fitsCapacity s.outCapacity s.outq.length = true →
      ∃ v t, hostRecv s = some (v, t) ∧ condition t = .run) ∧
    (condition s = .waitOut → s.outCapacity = .bounded 0 → ∃ v t, hostRecvDirect s = some (v, t))

/-- Rules R36, R160, R185: after the end of a run no transition but a reset changes anything but the channels' queues
and `in_closed`. -/
def Obligations.AnEndedRunStaysEnded : Prop :=
  ∀ (m : Move) (s t : State) (x : Traffic), s.status ≠ .running → fire m s = some (t, x) →
    t = { s with inq := t.inq, inClosed := t.inClosed, outq := t.outq }

/-- Rule R169: `status`, `cause` and `out_closed` tell a running, a halted and a faulted machine apart. -/
def Obligations.TheHostTellsTheOutcomesApart : Prop :=
  ∀ s : State, MachineInv s →
    (s.status = .running ↔ s.cause = .none ∧ s.outClosed = false) ∧
    (s.status = .halted ↔ s.cause = .none ∧ s.outClosed = true) ∧
    (s.status = .faulted ↔ s.cause ≠ .none ∧ s.outClosed = true)

/-- Rule R80, last sentence: what a step does depends only on `pc`, `rb`, `M`, `status`, the head of `inq`, `in_closed`
and whether `outq` has room. -/
def Obligations.AStepDependsOnlyOnTheListedState : Prop :=
  ∀ s s' t : State,
    s'.pc = s.pc → s'.rb = s.rb → s'.mem = s.mem → s'.status = s.status → s'.inq.head? = s.inq.head? →
    s'.inClosed = s.inClosed → outCanPush s' = outCanPush s → step s = .next t →
    ∃ t', step s' = .next t' ∧ t'.pc = t.pc ∧ t'.rb = t.rb ∧ t'.mem = t.mem ∧ t'.status = t.status ∧
      (t.status = .faulted → t'.cause = t.cause ∧ t'.faultInfo = t.faultInfo) ∧
      (∃ k, t.inq = s.inq.drop k ∧ t'.inq = s'.inq.drop k) ∧
      (∃ e, t.outq = s.outq ++ e ∧ t'.outq = s'.outq ++ e)

/-! ### Channels and several machines -/

/-- Rules R112, R113, R115: over any interleaving of machine and host, consumed values are the sent ones in order,
received values are the emitted ones in order, none lost, none made up, and `out_log` records what was emitted. -/
def Obligations.BothChannelsAreFifo : Prop :=
  ∀ (ms : List Move) (s t : State) (x : Traffic), MachineInv s → fireAll ms s = some (t, x) →
    x.consumed ++ t.inq = s.inq ++ x.sent ∧
    x.received ++ t.outq = s.outq ++ x.emitted ∧
    t.outLog = s.outLog ++ x.emitted

/-- Rule R191: an enabled step and a value sent by the host can change places. -/
def Obligations.SendingCommutesWithAStep : Prop :=
  ∀ (s s' t : State) (v : Word), condition s = .run → step s = .next t → hostSend v s = some s' →
    ∃ t', hostSend v t = some t' ∧ step s' = .next t' ∧ condition s' = .run

/-- Rule R191: an enabled step and a value taken by the host can change places. -/
def Obligations.ReceivingCommutesWithAStep : Prop :=
  ∀ (s s' t : State) (v : Word), condition s = .run → step s = .next t → hostRecv s = some (v, s') →
    ∃ t', hostRecv t = some (v, t') ∧ step s' = .next t' ∧ condition s' = .run

/-- Rules R116, R191: the capacities change when a step can happen, never what it does. -/
def Obligations.CapacitiesNeverChangeWhatAStepDoes : Prop :=
  ∀ (s t : State) (c d : Capacity), condition s = .run → condition { s with outCapacity := c } = .run →
    step s = .next t →
    step { s with inCapacity := d, outCapacity := c } = .next { t with inCapacity := d, outCapacity := c }

/-- Rule R116: with OUT_CAPACITY 0 an `output` has no step of its own; its value passes to the host in one transition
with the advance of `pc`. One whose operand faults is an ordinary step and passes nothing. -/
def Obligations.UnbufferedOutputIsOneJointTransition : Prop :=
  ∀ (a : ReadOperand) (s : State), s.status = .running → s.outCapacity = .bounded 0 → fetch s = .ok (.output a) →
    (readable s a = true → fire .step s = none ∧
      hostRecvDirect s = some (readValue s a, { s with
        outLog := s.outLog ++ [readValue s a]
        pc := wrap64 (s.pc.toInt + 2) })) ∧
    (readable s a = false → hostRecvDirect s = none ∧
      ∃ x, readAddress s a = some x ∧ step s = .next (faultedWith .invalidAddress x s))

/-- Rule R166 (with the decision D30; legal wirings: notes/assumptions/15.md): over every connection, `B.inq` is `A.outq`, `B.in_closed` is
`A.out_closed` and the capacity is A's, before and after every transition; what A emits joins the end of that one FIFO in
order, and what B consumes leaves its head and is stored by B's `input`. -/
def Obligations.WiredMachinesShareOneFifo : Prop :=
  ∀ (m : NetMove) (net net' : Network) (x : NetTraffic) (i j : Nat) (a b : State),
    net.wired → (⟨i, j⟩ : Wire) ∈ net.wires → net.machine i = some a → net.machine j = some b →
    fireNet m net = some (net', x) →
    (b.inq = a.outq ∧ b.inClosed = a.outClosed ∧ b.inCapacity = a.outCapacity) ∧
    ∃ a' b', net'.machine i = some a' ∧ net'.machine j = some b' ∧
      (b'.inq = a'.outq ∧ b'.inClosed = a'.outClosed ∧ b'.inCapacity = a'.outCapacity) ∧
      a'.outLog = a.outLog ++ emittedBy i x ∧ consumedBy j x ++ b'.inq = b.inq ++ emittedBy i x ∧
      (consumedBy j x ≠ [] → ∃ t n v, fetch b = .ok (.input t) ∧ writeAddr b t = .ok n ∧ consumedBy j x = [v] ∧
        b'.mem.read n = v)

/-! ### The Loader -/

/-- Rules R76, R184: the text of any sequence of words, with whitespace around it, reads back as that sequence. -/
def Obligations.ProgramTextReadsBack : Prop :=
  ∀ (ws : List Word) (l r : List Char), ws ≠ [] → l.all isBlank = true → r.all isBlank = true →
    parseProgram (l ++ renderProgram ws ++ r) = .ok ws

/-- Rule R183: an empty token (so also a trailing comma) or a character that is no digit, minus sign or comma is a
ParseError. -/
def Obligations.MalformedProgramTextIsRefused : Prop :=
  ∀ text : List Char,
    ([] ∈ splitCommas (trimText text) ∨
      ∃ c ∈ trimText text, c ≠ ',' ∧ c ≠ '-' ∧ ¬ (48 ≤ c.toNat ∧ c.toNat ≤ 57)) →
    parseProgram text = .error .malformedToken

/-! ### Networks -/

/-- Rule R166: "must deliver values to B in the exact order A emitted them", for any number of values, any wiring and any
interleaving of the machines: what B has consumed and what still waits are what waited and what A has emitted. -/
def Obligations.NetworkRunsDeliverInOrder : Prop :=
  ∀ (ms : List NetMove) (net net' : Network) (x : NetTraffic) (i j : Nat) (a b : State),
    net.wired → (⟨i, j⟩ : Wire) ∈ net.wires → net.machine i = some a → net.machine j = some b →
    fireNetAll ms net = some (net', x) →
    ∃ a' b', net'.machine i = some a' ∧ net'.machine j = some b' ∧
      consumedBy j x ++ b'.inq = b.inq ++ emittedBy i x ∧ a'.outLog = a.outLog ++ emittedBy i x

/-- Rule R166: "nothing is shared but channels". A machine that a transition does not move keeps everything but its
channels; its inbound queue changes only where its feeder moved, its outbound queue only where its consumer did. -/
def Obligations.MachinesShareOnlyChannels : Prop :=
  ∀ (m : NetMove) (net net' : Network) (x : NetTraffic) (l : Nat) (s : State),
    net.wired → fireNet m net = some (net', x) → net.machine l = some s → m.moves l = false →
    ∃ s', net'.machine l = some s' ∧ s' = { s with inq := s'.inq, inClosed := s'.inClosed, outq := s'.outq } ∧
      ((∀ k, (⟨k, l⟩ : Wire) ∈ net.wires → m.moves k = false) → s'.inq = s.inq ∧ s'.inClosed = s.inClosed) ∧
      ((∀ k, (⟨l, k⟩ : Wire) ∈ net.wires → m.moves k = false) → s'.outq = s.outq)

/-- Rule R166: when A has halted or faulted, B still receives what A had queued, oldest first, and then faults with
InputClosed at its next `input`. -/
def Obligations.AnEndedFeederLeavesItsQueueThenClosed : Prop :=
  ∀ (net : Network) (i j : Nat) (a b : State) (t : WriteOperand),
    net.wired → (⟨i, j⟩ : Wire) ∈ net.wires → net.machine i = some a → net.machine j = some b →
    a.outClosed = true → b.status = .running → fetch b = .ok (.input t) → writable b t = true →
    (∀ v rest, a.outq = v :: rest → ∃ net' x, fireNet (.move j .step) net = some (net', x) ∧
      net'.machine j = some { b with
        inq := rest
        mem := b.mem.write (writeAddress b t).toNat v
        pc := wrap64 (b.pc.toInt + 2) } ∧
      net'.machine i = some { a with outq := rest }) ∧
    (a.outq = [] → ∃ net' x, fireNet (.move j .step) net = some (net', x) ∧
      net'.machine j = some (faultedWith .inputClosed 0 b))

/-- Rules R116, R166: over an unbuffered connection A's `output` and B's `input` have no step of their own; they fire as
one joint transition, which stores A's value at B's target and advances both. -/
def Obligations.UnbufferedWireIsOneJointTransition : Prop :=
  ∀ (net : Network) (i j : Nat) (a b : State) (r : ReadOperand) (t : WriteOperand),
    net.wired → (⟨i, j⟩ : Wire) ∈ net.wires → net.machine i = some a → net.machine j = some b →
    a.outCapacity = .bounded 0 → a.outq = [] → a.outClosed = false →
    a.status = .running → fetch a = .ok (.output r) → readable a r = true →
    b.status = .running → fetch b = .ok (.input t) → writable b t = true →
    fireNet (.move i .step) net = none ∧ fireNet (.move j .step) net = none ∧
    ∃ net' x, fireNet (.transfer i j) net = some (net', x) ∧
      net'.machine i = some { a with
        outLog := a.outLog ++ [readValue a r]
        pc := wrap64 (a.pc.toInt + 2) } ∧
      net'.machine j = some { b with
        mem := b.mem.write (writeAddress b t).toNat (readValue a r)
        pc := wrap64 (b.pc.toInt + 2) }

/-- Rules R114, R166 and the model's inference in notes/assumptions/15.md (DEDUCED), that the host holds exactly the
ends that are not wired, end by end: the host has no move at a wired end; at an unwired end, whatever the other end is,
its moves are those of the single machine; and a machine's own enabled step is a transition under every wiring ("the
machines step in any interleaving"). -/
def Obligations.TheHostHoldsExactlyTheUnwiredEnds : Prop :=
  ∀ (net : Network) (k : Nat) (s : State), net.wired → net.machine k = some s →
    (∀ i, (⟨i, k⟩ : Wire) ∈ net.wires →
      (∀ v, fireNet (.move k (.send v)) net = none) ∧ fireNet (.move k .closeIn) net = none) ∧
    (∀ j, (⟨k, j⟩ : Wire) ∈ net.wires →
      fireNet (.move k .recv) net = none ∧ fireNet (.move k .recvDirect) net = none) ∧
    (∀ (m : Move) (t : State) (y : Traffic), fire m s = some (t, y) →
      (m = .step ∨
        (((∃ v, m = .send v) ∨ m = .closeIn) ∧ ∀ i, (⟨i, k⟩ : Wire) ∉ net.wires) ∨
        ((m = .recv ∨ m = .recvDirect) ∧ ∀ j, (⟨k, j⟩ : Wire) ∉ net.wires)) →
      ∃ net', fireNet (.move k m) net = some (net', [(k, y)]) ∧ net'.machine k = some t)

/-- Rules R34, R166: "no common start: each starts at its own reset". Resetting one machine gives it its reset values.
What that leaves of wired channels is the model's inference (notes/assumptions/15.md, DEDUCED): its wired inbound channel
stands, a machine it feeds sees an empty, open channel and keeps all else, and every other machine is as it was. -/
def Obligations.EachMachineHasItsOwnReset : Prop :=
  ∀ (net : Network) (k : Nat) (p : List Word) (ch : Channels) (s : State), net.wired → net.machine k = some s →
    (∃ t, (net.resetMachine k p ch).machine k = some t ∧
      (net.feeder k = none → t = State.new p ch) ∧
      (net.feeder k ≠ none → t = State.new p { ch with
        inq := s.inq
        inClosed := s.inClosed
        inCapacity := s.inCapacity })) ∧
    (∀ l u, (⟨k, l⟩ : Wire) ∈ net.wires → net.machine l = some u → (net.resetMachine k p ch).machine l = some { u with
      inq := []
      inClosed := false
      inCapacity := ch.outCapacity }) ∧
    (∀ l, l ≠ k → (⟨k, l⟩ : Wire) ∉ net.wires → (net.resetMachine k p ch).machine l = net.machine l)
end

