-- ==== Sys2Proof/Laws/Memory.lean ====
section
/-! SUPPORT. What a memory reads after each of its operations, and that each keeps the canonical form. -/

namespace Sys2Proof.Machine

@[simp] theorem Memory.read_nil (a : Nat) : Memory.read [] a = 0 := rfl

@[simp] theorem Memory.read_cons (k : Nat) (v : Word) (m : Memory) (a : Nat) :
    Memory.read ((k, v) :: m) a = if k = a then v else Memory.read m a := rfl

/-- An address that is not listed reads as 0 (spec/20_memory.md rule R43). -/
theorem Memory.read_eq_zero_of_unlisted {m : Memory} {a : Nat} (h : ∀ c ∈ m, c.1 ≠ a) : m.read a = 0 := by
  induction m with
  | nil => rfl
  | cons c m ih =>
    obtain ⟨k, v⟩ := c
    have hk : k ≠ a := h (k, v) (by simp)
    simp [hk, ih fun c hc => h c (by simp [hc])]

/-- Taking the cells of `a` out leaves every other address as it was. -/
theorem Memory.read_filter_other {a b : Nat} (h : b ≠ a) (m : Memory) :
    Memory.read (m.filter fun c => decide (c.1 ≠ a)) b = m.read b := by
  induction m with
  | nil => rfl
  | cons c m ih =>
    obtain ⟨k, v⟩ := c
    by_cases hk : k = a
    · subst hk
      have hb : k ≠ b := Ne.symm h
      simpa [hb] using ih
    · simp only [ne_eq, hk, not_false_eq_true, decide_true, List.filter_cons_of_pos, Memory.read_cons]
      rw [← ih]

/-- A cell put into a memory that does not list its address is what that address then reads. -/
theorem Memory.read_insertCell_same {m : Memory} {a : Nat} (v : Word) (h : ∀ c ∈ m, c.1 ≠ a) :
    (m.insertCell a v).read a = v := by
  induction m with
  | nil => simp [Memory.insertCell]
  | cons c m ih =>
    obtain ⟨k, x⟩ := c
    have hk : k ≠ a := h (k, x) (by simp)
    by_cases hlt : a < k
    · simp [Memory.insertCell, hlt]
    · simp [Memory.insertCell, hlt, hk, ih fun c hc => h c (by simp [hc])]

/-- Putting a cell in leaves every other address as it was. -/
theorem Memory.read_insertCell_other {a b : Nat} (h : b ≠ a) (v : Word) (m : Memory) :
    (m.insertCell a v).read b = m.read b := by
  have hab : a ≠ b := Ne.symm h
  induction m with
  | nil => simp [Memory.insertCell, hab]
  | cons c m ih =>
    obtain ⟨k, x⟩ := c
    by_cases hlt : a < k
    · simp [Memory.insertCell, hlt, hab]
    · simp [Memory.insertCell, hlt, ih]

/-- The address written reads as the word written. -/
theorem Memory.read_write_same (m : Memory) (a : Nat) (v : Word) : (m.write a v).read a = v := by
  by_cases hv : v = 0
  · rw [Memory.write, if_pos hv, hv]
    exact Memory.read_eq_zero_of_unlisted fun c hc => by simpa using (List.mem_filter.mp hc).2
  · rw [Memory.write, if_neg hv]
    exact Memory.read_insertCell_same v fun c hc => by simpa using (List.mem_filter.mp hc).2

/-- Every other address reads as before. -/
theorem Memory.read_write_other {a b : Nat} (h : b ≠ a) (m : Memory) (v : Word) : (m.write a v).read b = m.read b := by
  by_cases hv : v = 0
  · rw [Memory.write, if_pos hv]
    exact Memory.read_filter_other h m
  · rw [Memory.write, if_neg hv, Memory.read_insertCell_other h]
    exact Memory.read_filter_other h m

/-- The image of a program at `base` reads as the program there, and as 0 elsewhere. -/
theorem Memory.read_image (p : List Word) (base a : Nat) :
    (Memory.image base p).read a = if base ≤ a then p.getD (a - base) 0 else 0 := by
  induction p generalizing base with
  | nil => simp [Memory.image]
  | cons v vs ih =>
    have hfar : (Memory.image base (v :: vs)).read a = if base = a then v else (Memory.image (base + 1) vs).read a := by
      by_cases hv : v = 0
      · rw [Memory.image, if_pos hv]
        by_cases hb : base = a
        · rw [if_pos hb, ih, if_neg (by omega), hv]
        · rw [if_neg hb]
      · rw [Memory.image, if_neg hv, Memory.read_cons]
    rw [hfar, ih]
    rcases Nat.lt_trichotomy a base with hlt | heq | hgt
    · rw [if_neg (by omega), if_neg (by omega), if_neg (by omega)]
    · subst heq
      simp
    · obtain ⟨d, rfl⟩ : ∃ d, a = base + 1 + d := ⟨a - (base + 1), by omega⟩
      rw [if_neg (by omega), if_pos (by omega), if_pos (by omega), Nat.add_sub_cancel_left,
        show base + 1 + d - base = d + 1 by omega, List.getD_cons_succ]

/-! ### The canonical form -/

theorem Memory.wf_nil : Memory.wf [] := ⟨List.Pairwise.nil, fun _ h => by cases h⟩

/-- The cells after a put are the old ones and the new one. -/
theorem Memory.mem_insertCell {m : Memory} {a : Nat} {v : Word} {c : Cell} :
    c ∈ m.insertCell a v ↔ c = (a, v) ∨ c ∈ m := by
  induction m with
  | nil => simp [Memory.insertCell]
  | cons d m ih =>
    obtain ⟨k, x⟩ := d
    by_cases hlt : a < k
    · simp [Memory.insertCell, hlt]
    · simp [Memory.insertCell, hlt, ih]
      tauto

/-- A put keeps addresses strictly rising where the address was not listed. -/
theorem Memory.pairwise_insertCell {m : Memory} {a : Nat} (v : Word) (hm : m.Pairwise fun c d => c.1 < d.1)
    (h : ∀ c ∈ m, c.1 ≠ a) : (m.insertCell a v).Pairwise fun c d => c.1 < d.1 := by
  induction m with
  | nil => simp [Memory.insertCell]
  | cons d m ih =>
    obtain ⟨k, x⟩ := d
    rw [List.pairwise_cons] at hm
    have hk : k ≠ a := h (k, x) (by simp)
    by_cases hlt : a < k
    · simp only [Memory.insertCell, hlt, if_true, List.pairwise_cons]
      refine ⟨fun c hc => ?_, hm.1, hm.2⟩
      rcases List.mem_cons.mp hc with rfl | hc
      · exact hlt
      · exact Nat.lt_trans hlt (hm.1 c hc)
    · simp only [Memory.insertCell, hlt, if_false, List.pairwise_cons]
      refine ⟨fun c hc => ?_, ih hm.2 fun c hc => h c (by simp [hc])⟩
      rcases Memory.mem_insertCell.mp hc with rfl | hc
      · exact Nat.lt_of_le_of_ne (Nat.le_of_not_lt hlt) hk
      · exact hm.1 c hc

/-- A write at an address that exists keeps the canonical form. -/
theorem Memory.wf_write {m : Memory} (hm : m.wf) {a : Nat} (ha : a < addressLimit) (v : Word) : (m.write a v).wf := by
  have hf : Memory.wf (m.filter fun c => decide (c.1 ≠ a)) :=
    ⟨hm.1.filter _, fun c hc => hm.2 c (List.mem_filter.mp hc).1⟩
  by_cases hv : v = 0
  · rw [Memory.write, if_pos hv]
    exact hf
  · rw [Memory.write, if_neg hv]
    refine ⟨Memory.pairwise_insertCell v hf.1 fun c hc => by simpa using (List.mem_filter.mp hc).2, fun c hc => ?_⟩
    rcases Memory.mem_insertCell.mp hc with rfl | hc
    · exact ⟨ha, hv⟩
    · exact hf.2 c hc

/-- Every cell of an image lies at or after its base, and inside it. -/
theorem Memory.mem_image {p : List Word} {base : Nat} {c : Cell} (h : c ∈ Memory.image base p) :
    base ≤ c.1 ∧ c.1 < base + p.length ∧ c.2 ≠ 0 := by
  induction p generalizing base with
  | nil => simp [Memory.image] at h
  | cons v vs ih =>
    by_cases hv : v = 0
    · rw [Memory.image, if_pos hv] at h
      have := ih h
      simp only [List.length_cons]
      exact ⟨by omega, by omega, this.2.2⟩
    · rw [Memory.image, if_neg hv] at h
      rcases List.mem_cons.mp h with rfl | h
      · exact ⟨le_refl _, by simp, hv⟩
      · have := ih h
        simp only [List.length_cons]
        exact ⟨by omega, by omega, this.2.2⟩

/-- The image of a program that fits the address space is in canonical form. -/
theorem Memory.wf_image (p : List Word) (base : Nat) (h : base + p.length ≤ addressLimit) : (Memory.image base p).wf := by
  refine ⟨?_, fun c hc => ⟨Nat.lt_of_lt_of_le (Memory.mem_image hc).2.1 h, (Memory.mem_image hc).2.2⟩⟩
  clear h
  induction p generalizing base with
  | nil => simp [Memory.image]
  | cons v vs ih =>
    by_cases hv : v = 0
    · rw [Memory.image, if_pos hv]
      exact ih (base + 1)
    · rw [Memory.image, if_neg hv, List.pairwise_cons]
      exact ⟨fun c hc => (Memory.mem_image hc).1, ih (base + 1)⟩

/-- The memory of the reset state is in canonical form. -/
theorem State.reset_mem_wf : State.reset.mem.wf := Memory.wf_nil

end Sys2Proof.Machine
end

