-- ==== Sys2Proof/Laws/Network.lean ====
section
/-! SUPPORT. What the operations of a network can do. -/

namespace Sys2Proof.Machine

@[simp] theorem Network.store_wires (net : Network) (k : Nat) (t : State) (n : Nat) :
    (net.store k t n).wires = net.wires := rfl

@[simp] theorem Network.store_feeder (net : Network) (k : Nat) (t : State) (n j : Nat) :
    (net.store k t n).feeder j = net.feeder j := rfl

@[simp] theorem Network.store_feeds (net : Network) (k : Nat) (t : State) (n i : Nat) :
    (net.store k t n).feeds i = net.feeds i := rfl

@[simp] theorem Network.store_length (net : Network) (k : Nat) (t : State) (n : Nat) :
    (net.store k t n).machines.length = net.machines.length := by
  unfold Network.store
  cases net.feeder k <;> simp

theorem Network.wired_store {net : Network} (h : net.wired) (k : Nat) (t : State) (n : Nat) : (net.store k t n).wired := by
  simpa [Network.wired] using h

/-- Two wires of a legal wiring that share an end are one wire. -/
theorem Network.wire_unique {net : Network} (h : net.wired) {v w : Wire} (hv : v ∈ net.wires) (hw : w ∈ net.wires)
    (he : v.source = w.source ∨ v.sink = w.sink) : v = w := by
  by_contra hne
  have : Std.Symm fun v w : Wire => v.source ≠ w.source ∧ v.sink ≠ w.sink := ⟨fun _ _ x => ⟨x.1.symm, x.2.symm⟩⟩
  have := h.2.forall hv hw hne
  exact he.elim this.1 this.2

theorem Network.feeder_eq_some {net : Network} (h : net.wired) {i j : Nat} :
    net.feeder j = some i ↔ (⟨i, j⟩ : Wire) ∈ net.wires := by
  constructor
  · intro hf
    obtain ⟨w, hw, rfl⟩ := Option.map_eq_some_iff.1 hf
    have hs := List.find?_some hw
    simp only [beq_iff_eq] at hs
    subst hs
    exact List.mem_of_find?_eq_some hw
  · intro hm
    cases hc : net.wires.find? fun w => w.sink == j with
    | none => exact absurd (List.find?_eq_none.1 hc _ hm) (by simp)
    | some w =>
      have hs := List.find?_some hc
      simp only [beq_iff_eq] at hs
      have := Network.wire_unique h (List.mem_of_find?_eq_some hc) hm (.inr hs)
      simp [Network.feeder, hc, this]

theorem Network.feeds_eq_true {net : Network} {i : Nat} : net.feeds i = true ↔ ∃ j, (⟨i, j⟩ : Wire) ∈ net.wires := by
  simp only [Network.feeds, List.any_eq_true, beq_iff_eq]
  exact ⟨fun ⟨w, hw, hs⟩ => ⟨w.sink, hs ▸ hw⟩, fun ⟨j, hj⟩ => ⟨_, hj, rfl⟩⟩

/-- A machine whose inbound channel the host holds is stored whole. -/
theorem Network.machine_of_unfed {net : Network} {j : Nat} (h : net.feeder j = none) : net.machine j = net.machines[j]? := by
  rw [Network.machine, h]

/-- A machine with a wired inbound channel sees its feeder's outbound channel. -/
theorem Network.machine_of_fed {net : Network} {i j : Nat} (h : net.feeder j = some i) :
    net.machine j = net.machines[i]?.bind fun a => net.machines[j]?.map (withInbound a) := by
  rw [Network.machine, h]

/-- The stored machines after `store`: `k` is replaced, its feeder loses `n` values, every other stays. -/
theorem Network.getElem?_store {net : Network} (h : net.wired) (k : Nat) (t : State) (n l : Nat) :
    (net.store k t n).machines[l]? =
      if l = k then net.machines[l]?.map fun _ => t
      else if net.feeder k = some l then net.machines[l]?.map (dropOut n)
      else net.machines[l]? := by
  have hset : (net.machines.set k t)[l]? = if l = k then net.machines[l]?.map fun _ => t else net.machines[l]? := by
    rw [List.getElem?_set]
    by_cases hl : k = l
    · subst hl
      by_cases hk : k < net.machines.length <;> simp [hk]
    · simp [hl, Ne.symm hl]
  cases hf : net.feeder k with
  | none => simp [Network.store, hf, hset]
  | some i =>
    have hik : i ≠ k := (h.1 _ ((Network.feeder_eq_some h).1 hf)).2.2
    simp only [Network.store, hf, List.getElem?_modify, hset]
    by_cases hl : l = k
    · subst hl
      simp [hik]
    · by_cases hi : i = l <;> simp [hl, hi]

/-- The machine that moved, after `store`: its new state, if it left a wired inbound channel but for the `n` values. -/
theorem Network.machine_store_self {net : Network} (h : net.wired) {k : Nat} {s t : State} {n : Nat}
    (hk : net.machine k = some s)
    (ht : (net.feeder k).isSome = true → t.inq = s.inq.drop n ∧ t.inClosed = s.inClosed ∧ t.inCapacity = s.inCapacity) :
    (net.store k t n).machine k = some t := by
  cases hf : net.feeder k with
  | none =>
    rw [Network.machine_of_unfed hf] at hk
    rw [Network.machine_of_unfed (by simpa using hf), Network.getElem?_store h]
    simp [hk]
  | some i =>
    have hik : i ≠ k := (h.1 _ ((Network.feeder_eq_some h).1 hf)).2.2
    rw [Network.machine_of_fed hf] at hk
    obtain ⟨a, ha, hk⟩ := Option.bind_eq_some_iff.1 hk
    obtain ⟨b, hb, rfl⟩ := Option.map_eq_some_iff.1 hk
    rw [Network.machine_of_fed (i := i) (by simpa using hf), Network.getElem?_store h, Network.getElem?_store h]
    obtain ⟨h1, h2, h3⟩ := ht (by simp [hf])
    simp only [hf, hik, if_false, if_true, ha, hb, Option.map_some, Option.bind_some]
    cases t
    simp_all [withInbound, dropOut]

/-- Any other machine, after `store`: only its channels can differ, its outbound queue where it feeds the machine that
moved, its inbound channel where that machine feeds it. -/
theorem Network.machine_store_other {net : Network} (h : net.wired) {k l : Nat} {s u t : State} {n : Nat} (hl : l ≠ k)
    (hk : net.machine k = some s) (hu : net.machine l = some u) :
    (net.store k t n).machine l = some { u with
      outq := if net.feeder k = some l then u.outq.drop n else u.outq
      inq := if net.feeder l = some k then t.outq else u.inq
      inClosed := if net.feeder l = some k then t.outClosed else u.inClosed
      inCapacity := if net.feeder l = some k then t.outCapacity else u.inCapacity } := by
  have hkm : ∃ b, net.machines[k]? = some b := by
    cases hf : net.feeder k with
    | none => exact ⟨s, by rw [← Network.machine_of_unfed hf, hk]⟩
    | some i =>
      rw [Network.machine_of_fed hf] at hk
      obtain ⟨_, _, hk⟩ := Option.bind_eq_some_iff.1 hk
      obtain ⟨b, hb, _⟩ := Option.map_eq_some_iff.1 hk
      exact ⟨b, hb⟩
  obtain ⟨b, hb⟩ := hkm
  cases hf : net.feeder l with
  | none =>
    rw [Network.machine_of_unfed hf] at hu
    rw [Network.machine_of_unfed (by simpa using hf), Network.getElem?_store h]
    by_cases hkl : net.feeder k = some l <;> simp [hl, hkl, hu, dropOut]
  | some i =>
    have hw := (Network.feeder_eq_some h).1 hf
    have hil : l ≠ i := (h.1 _ hw).2.2.symm
    have hki : net.feeder k ≠ some i := fun hc => by
      have := Network.wire_unique h ((Network.feeder_eq_some h).1 hc) hw (.inl rfl)
      exact hl (congrArg Wire.sink this).symm
    rw [Network.machine_of_fed hf] at hu
    obtain ⟨a, ha, hu⟩ := Option.bind_eq_some_iff.1 hu
    obtain ⟨c, hc, rfl⟩ := Option.map_eq_some_iff.1 hu
    rw [Network.machine_of_fed (i := i) (by simpa using hf), Network.getElem?_store h, Network.getElem?_store h]
    by_cases hik : i = k
    · subst hik
      by_cases hkl : net.feeder i = some l <;> simp [hl, hkl, hb, hc, dropOut, withInbound]
    · by_cases hkl : net.feeder k = some l <;> simp [hl, hik, hki, hil, hkl, ha, hc, dropOut, withInbound]

/-- What a transition of a network can be. -/
theorem fireNet_cases {m : NetMove} {net net' : Network} {x : NetTraffic} (h : fireNet m net = some (net', x)) :
    (∃ k v s t y, m = .move k v ∧ net.machine k = some s ∧ net.allows k v = true ∧ fire v s = some (t, y) ∧
      net' = net.store k t y.consumed.length ∧ x = [(k, y)]) ∨
    (∃ i j a b v a' b', m = .transfer i j ∧ (⟨i, j⟩ : Wire) ∈ net.wires ∧ net.machine i = some a ∧ net.machine j = some b ∧
      hostRecvDirect a = some (v, a') ∧ receiveDirect v b = some b' ∧ net' = (net.store i a' 0).store j b' 0 ∧
      x = [(i, { Traffic.nothing with emitted := [v] }), (j, { Traffic.nothing with consumed := [v] })]) := by
  cases m with
  | move k v =>
    left
    simp only [fireNet] at h
    split at h
    · cases h
    · rename_i s hs
      split at h
      · rename_i ha
        split at h
        · cases h
        · rename_i t y hf
          cases h
          exact ⟨k, v, s, t, y, rfl, hs, ha, hf, rfl, rfl⟩
      · cases h
  | transfer i j =>
    right
    simp only [fireNet] at h
    split at h
    · rename_i hw
      split at h
      · rename_i a b ha hb
        split at h
        · cases h
        · rename_i v a' hd
          split at h
          · cases h
          · rename_i b' hr
            cases h
            exact ⟨i, j, a, b, v, a', b', rfl, hw, ha, hb, hd, hr, rfl, rfl⟩
      · cases h
    · cases h

/-- A transition keeps the connections and the number of machines, so also a legal wiring. -/
theorem fireNet_wires {m : NetMove} {net net' : Network} {x : NetTraffic} (h : fireNet m net = some (net', x)) :
    net'.wires = net.wires ∧ net'.machines.length = net.machines.length ∧ (net.wired → net'.wired) := by
  obtain ⟨k, v, s, t, y, rfl, _, _, _, rfl, rfl⟩ | ⟨i, j, a, b, v, a', b', rfl, _, _, _, _, _, rfl, rfl⟩ := fireNet_cases h
  · exact ⟨rfl, by simp, fun h => Network.wired_store h _ _ _⟩
  · exact ⟨rfl, by simp, fun h => Network.wired_store (Network.wired_store h _ _ _) _ _ _⟩

end Sys2Proof.Machine
end

