-- ==== Sys2Proof/Laws/State.lean ====
section
/-! SUPPORT. One lemma per field per update of the state, so that no later proof unfolds a record update. -/

namespace Sys2Proof.Machine

section takeFaultFields

variable (r : Raise) (s : State)

@[simp] theorem takeFault_pc : (takeFault r s).pc = s.pc := rfl
@[simp] theorem takeFault_rb : (takeFault r s).rb = s.rb := rfl
@[simp] theorem takeFault_mem : (takeFault r s).mem = s.mem := rfl
@[simp] theorem takeFault_status : (takeFault r s).status = .faulted := rfl
@[simp] theorem takeFault_cause : (takeFault r s).cause = r.cause := rfl
@[simp] theorem takeFault_faultInfo : (takeFault r s).faultInfo = r.info := rfl
@[simp] theorem takeFault_inq : (takeFault r s).inq = s.inq := rfl
@[simp] theorem takeFault_inClosed : (takeFault r s).inClosed = s.inClosed := rfl
@[simp] theorem takeFault_outq : (takeFault r s).outq = s.outq := rfl
@[simp] theorem takeFault_outClosed : (takeFault r s).outClosed = true := rfl
@[simp] theorem takeFault_outLog : (takeFault r s).outLog = s.outLog := rfl
@[simp] theorem takeFault_inCapacity : (takeFault r s).inCapacity = s.inCapacity := rfl
@[simp] theorem takeFault_outCapacity : (takeFault r s).outCapacity = s.outCapacity := rfl

end takeFaultFields

section storeWordFields

variable (n : Nat) (v : Word) (s : State)

@[simp] theorem storeWord_pc : (storeWord n v s).pc = s.pc := rfl
@[simp] theorem storeWord_rb : (storeWord n v s).rb = s.rb := rfl
@[simp] theorem storeWord_mem : (storeWord n v s).mem = s.mem.write n v := rfl
@[simp] theorem storeWord_status : (storeWord n v s).status = s.status := rfl
@[simp] theorem storeWord_cause : (storeWord n v s).cause = s.cause := rfl
@[simp] theorem storeWord_faultInfo : (storeWord n v s).faultInfo = s.faultInfo := rfl
@[simp] theorem storeWord_inq : (storeWord n v s).inq = s.inq := rfl
@[simp] theorem storeWord_inClosed : (storeWord n v s).inClosed = s.inClosed := rfl
@[simp] theorem storeWord_outq : (storeWord n v s).outq = s.outq := rfl
@[simp] theorem storeWord_outClosed : (storeWord n v s).outClosed = s.outClosed := rfl
@[simp] theorem storeWord_outLog : (storeWord n v s).outLog = s.outLog := rfl
@[simp] theorem storeWord_inCapacity : (storeWord n v s).inCapacity = s.inCapacity := rfl
@[simp] theorem storeWord_outCapacity : (storeWord n v s).outCapacity = s.outCapacity := rfl

end storeWordFields

section advanceFields

variable (n : Nat) (s : State)

@[simp] theorem advance_pc : (advance n s).pc = nextPc n s := rfl
@[simp] theorem advance_rb : (advance n s).rb = s.rb := rfl
@[simp] theorem advance_mem : (advance n s).mem = s.mem := rfl
@[simp] theorem advance_status : (advance n s).status = s.status := rfl
@[simp] theorem advance_cause : (advance n s).cause = s.cause := rfl
@[simp] theorem advance_faultInfo : (advance n s).faultInfo = s.faultInfo := rfl
@[simp] theorem advance_inq : (advance n s).inq = s.inq := rfl
@[simp] theorem advance_inClosed : (advance n s).inClosed = s.inClosed := rfl
@[simp] theorem advance_outq : (advance n s).outq = s.outq := rfl
@[simp] theorem advance_outClosed : (advance n s).outClosed = s.outClosed := rfl
@[simp] theorem advance_outLog : (advance n s).outLog = s.outLog := rfl
@[simp] theorem advance_inCapacity : (advance n s).inCapacity = s.inCapacity := rfl
@[simp] theorem advance_outCapacity : (advance n s).outCapacity = s.outCapacity := rfl

end advanceFields

section jumpToFields

variable (v : Word) (s : State)

@[simp] theorem jumpTo_pc : (jumpTo v s).pc = v := rfl
@[simp] theorem jumpTo_rb : (jumpTo v s).rb = s.rb := rfl
@[simp] theorem jumpTo_mem : (jumpTo v s).mem = s.mem := rfl
@[simp] theorem jumpTo_status : (jumpTo v s).status = s.status := rfl
@[simp] theorem jumpTo_cause : (jumpTo v s).cause = s.cause := rfl
@[simp] theorem jumpTo_faultInfo : (jumpTo v s).faultInfo = s.faultInfo := rfl
@[simp] theorem jumpTo_inq : (jumpTo v s).inq = s.inq := rfl
@[simp] theorem jumpTo_inClosed : (jumpTo v s).inClosed = s.inClosed := rfl
@[simp] theorem jumpTo_outq : (jumpTo v s).outq = s.outq := rfl
@[simp] theorem jumpTo_outClosed : (jumpTo v s).outClosed = s.outClosed := rfl
@[simp] theorem jumpTo_outLog : (jumpTo v s).outLog = s.outLog := rfl
@[simp] theorem jumpTo_inCapacity : (jumpTo v s).inCapacity = s.inCapacity := rfl
@[simp] theorem jumpTo_outCapacity : (jumpTo v s).outCapacity = s.outCapacity := rfl

end jumpToFields

section adjustRbFields

variable (v : Word) (s : State)

@[simp] theorem adjustRb_pc : (adjustRb v s).pc = s.pc := rfl
@[simp] theorem adjustRb_rb : (adjustRb v s).rb = wrap64 (s.rb.toInt + v.toInt) := rfl
@[simp] theorem adjustRb_mem : (adjustRb v s).mem = s.mem := rfl
@[simp] theorem adjustRb_status : (adjustRb v s).status = s.status := rfl
@[simp] theorem adjustRb_cause : (adjustRb v s).cause = s.cause := rfl
@[simp] theorem adjustRb_faultInfo : (adjustRb v s).faultInfo = s.faultInfo := rfl
@[simp] theorem adjustRb_inq : (adjustRb v s).inq = s.inq := rfl
@[simp] theorem adjustRb_inClosed : (adjustRb v s).inClosed = s.inClosed := rfl
@[simp] theorem adjustRb_outq : (adjustRb v s).outq = s.outq := rfl
@[simp] theorem adjustRb_outClosed : (adjustRb v s).outClosed = s.outClosed := rfl
@[simp] theorem adjustRb_outLog : (adjustRb v s).outLog = s.outLog := rfl
@[simp] theorem adjustRb_inCapacity : (adjustRb v s).inCapacity = s.inCapacity := rfl
@[simp] theorem adjustRb_outCapacity : (adjustRb v s).outCapacity = s.outCapacity := rfl

end adjustRbFields

section inPopFields

variable (s : State)

@[simp] theorem inPop_pc : (inPop s).pc = s.pc := rfl
@[simp] theorem inPop_rb : (inPop s).rb = s.rb := rfl
@[simp] theorem inPop_mem : (inPop s).mem = s.mem := rfl
@[simp] theorem inPop_status : (inPop s).status = s.status := rfl
@[simp] theorem inPop_cause : (inPop s).cause = s.cause := rfl
@[simp] theorem inPop_faultInfo : (inPop s).faultInfo = s.faultInfo := rfl
@[simp] theorem inPop_inq : (inPop s).inq = s.inq.tail := rfl
@[simp] theorem inPop_inClosed : (inPop s).inClosed = s.inClosed := rfl
@[simp] theorem inPop_outq : (inPop s).outq = s.outq := rfl
@[simp] theorem inPop_outClosed : (inPop s).outClosed = s.outClosed := rfl
@[simp] theorem inPop_outLog : (inPop s).outLog = s.outLog := rfl
@[simp] theorem inPop_inCapacity : (inPop s).inCapacity = s.inCapacity := rfl
@[simp] theorem inPop_outCapacity : (inPop s).outCapacity = s.outCapacity := rfl

end inPopFields

section outPushFields

variable (v : Word) (s : State)

@[simp] theorem outPush_pc : (outPush v s).pc = s.pc := rfl
@[simp] theorem outPush_rb : (outPush v s).rb = s.rb := rfl
@[simp] theorem outPush_mem : (outPush v s).mem = s.mem := rfl
@[simp] theorem outPush_status : (outPush v s).status = s.status := rfl
@[simp] theorem outPush_cause : (outPush v s).cause = s.cause := rfl
@[simp] theorem outPush_faultInfo : (outPush v s).faultInfo = s.faultInfo := rfl
@[simp] theorem outPush_inq : (outPush v s).inq = s.inq := rfl
@[simp] theorem outPush_inClosed : (outPush v s).inClosed = s.inClosed := rfl
@[simp] theorem outPush_outq : (outPush v s).outq = s.outq ++ [v] := rfl
@[simp] theorem outPush_outClosed : (outPush v s).outClosed = s.outClosed := rfl
@[simp] theorem outPush_outLog : (outPush v s).outLog = s.outLog ++ [v] := rfl
@[simp] theorem outPush_inCapacity : (outPush v s).inCapacity = s.inCapacity := rfl
@[simp] theorem outPush_outCapacity : (outPush v s).outCapacity = s.outCapacity := rfl

end outPushFields

section enterHaltedFields

variable (s : State)

@[simp] theorem enterHalted_pc : (enterHalted s).pc = s.pc := rfl
@[simp] theorem enterHalted_rb : (enterHalted s).rb = s.rb := rfl
@[simp] theorem enterHalted_mem : (enterHalted s).mem = s.mem := rfl
@[simp] theorem enterHalted_status : (enterHalted s).status = .halted := rfl
@[simp] theorem enterHalted_cause : (enterHalted s).cause = s.cause := rfl
@[simp] theorem enterHalted_faultInfo : (enterHalted s).faultInfo = s.faultInfo := rfl
@[simp] theorem enterHalted_inq : (enterHalted s).inq = s.inq := rfl
@[simp] theorem enterHalted_inClosed : (enterHalted s).inClosed = s.inClosed := rfl
@[simp] theorem enterHalted_outq : (enterHalted s).outq = s.outq := rfl
@[simp] theorem enterHalted_outClosed : (enterHalted s).outClosed = true := rfl
@[simp] theorem enterHalted_outLog : (enterHalted s).outLog = s.outLog := rfl
@[simp] theorem enterHalted_inCapacity : (enterHalted s).inCapacity = s.inCapacity := rfl
@[simp] theorem enterHalted_outCapacity : (enterHalted s).outCapacity = s.outCapacity := rfl

end enterHaltedFields

end Sys2Proof.Machine
end

