-- ==== Sys2Proof/Laws/Ops.lean ====
section
/-! SUPPORT. For each shared operation, one lemma that says everything it can do. -/

namespace Sys2Proof.Machine

/-- An address is refused for its sign alone, and is then the detail of the fault. -/
theorem checkAddr_cases (a : Word) :
    (a.toInt < 0 ∧ checkAddr a = .error ⟨.invalidAddress, a⟩) ∨ (0 ≤ a.toInt ∧ checkAddr a = .ok a.toNat) := by
  by_cases h : a.toInt < 0
  · exact .inl ⟨h, if_pos h⟩
  · exact .inr ⟨by omega, if_neg h⟩

/-- A word that is not negative is an address that exists. -/
theorem toNat_lt_addressLimit {a : Word} (h : 0 ≤ a.toInt) : a.toNat < addressLimit := by
  have := a.isLt
  rw [BitVec.toInt_eq_toNat_cond] at h
  split at h <;> simp only [addressLimit] <;> omega

/-- An address that was accepted exists. -/
theorem checkAddr_ok {a : Word} {n : Nat} (h : checkAddr a = .ok n) : 0 ≤ a.toInt ∧ n = a.toNat ∧ n < addressLimit := by
  rcases checkAddr_cases a with ⟨_, h'⟩ | ⟨hn, h'⟩
  · rw [h'] at h
    cases h
  · rw [h'] at h
    cases h
    exact ⟨hn, rfl, toNat_lt_addressLimit hn⟩

/-- What a checked read can answer. -/
theorem memRead_cases (s : State) (a : Word) :
    (a.toInt < 0 ∧ memRead s a = .error ⟨.invalidAddress, a⟩) ∨
      (0 ≤ a.toInt ∧ memRead s a = .ok (s.mem.read a.toNat)) := by
  rcases checkAddr_cases a with ⟨h, h'⟩ | ⟨h, h'⟩
  · exact .inl ⟨h, by rw [memRead, h']⟩
  · exact .inr ⟨h, by rw [memRead, h']⟩

/-- What a checked write can answer. -/
theorem memWrite_cases (s : State) (a v : Word) :
    (a.toInt < 0 ∧ memWrite s a v = .error ⟨.invalidAddress, a⟩) ∨
      (0 ≤ a.toInt ∧ memWrite s a v = .ok (storeWord a.toNat v s)) := by
  rcases checkAddr_cases a with ⟨h, h'⟩ | ⟨h, h'⟩
  · exact .inl ⟨h, by rw [memWrite, h']⟩
  · exact .inr ⟨h, by rw [memWrite, h']⟩

/-- A checked write keeps the memory's canonical form. -/
theorem memWrite_wf {s t : State} {a v : Word} (hm : s.mem.wf) (h : memWrite s a v = .ok t) : t.mem.wf := by
  rcases memWrite_cases s a v with ⟨_, h'⟩ | ⟨hn, h'⟩
  · rw [h'] at h
    cases h
  · rw [h'] at h
    cases h
    exact Memory.wf_write hm (toNat_lt_addressLimit hn) v

/-- The words placed for a fetch keep the memory's canonical form. -/
theorem placeWords_wf (ws : List Word) (s : State) (a : Word) (hm : s.mem.wf) : (placeWords s a ws).mem.wf := by
  induction ws generalizing s a with
  | nil => exact hm
  | cons v vs ih =>
    rw [placeWords]
    split
    · exact ih _ _ hm
    · rename_i h
      exact ih _ _ (memWrite_wf hm h)

@[simp] theorem resolve_ok {α : Type} (v : α) (s : State) (k : α → Host.Outcome State Fault Refusal) :
    resolve (.ok v) s k = k v := rfl

@[simp] theorem resolve_error {α : Type} (r : Raise) (s : State) (k : α → Host.Outcome State Fault Refusal) :
    resolve (.error r) s k = .next (takeFault r s) := rfl

/-- What going on with a resolved value can answer. -/
theorem resolve_cases {α : Type} (e : Except Raise α) (s : State) (k : α → Host.Outcome State Fault Refusal) :
    (∃ r, e = .error r ∧ resolve e s k = .next (takeFault r s)) ∨ (∃ v, e = .ok v ∧ resolve e s k = k v) := by
  cases e with
  | error r => exact .inl ⟨r, rfl, rfl⟩
  | ok v => exact .inr ⟨v, rfl, rfl⟩

/-- A fault raised by a read operand is an InvalidAddress with a negative address. -/
theorem readOp_error {s : State} {a : ReadOperand} {r : Raise} (h : readOp s a = .error r) :
    r.cause = .invalidAddress ∧ r.info.toInt < 0 := by
  have key : ∀ x, memRead s x = .error r → r.cause = .invalidAddress ∧ r.info.toInt < 0 := by
    intro x hx
    rcases memRead_cases s x with ⟨hn, h'⟩ | ⟨_, h'⟩
    · rw [h'] at hx
      cases hx
      exact ⟨rfl, hn⟩
    · rw [h'] at hx
      cases hx
  cases a with
  | positional raw => exact key _ h
  | immediate raw => cases h
  | relative raw => exact key _ h

/-- A fault raised by a write operand is an InvalidAddress with a negative address. -/
theorem writeAddr_error {s : State} {c : WriteOperand} {r : Raise} (h : writeAddr s c = .error r) :
    r.cause = .invalidAddress ∧ r.info.toInt < 0 := by
  have key : ∀ x, checkAddr x = .error r → r.cause = .invalidAddress ∧ r.info.toInt < 0 := by
    intro x hx
    rcases checkAddr_cases x with ⟨hn, h'⟩ | ⟨_, h'⟩
    · rw [h'] at hx
      cases hx
      exact ⟨rfl, hn⟩
    · rw [h'] at hx
      cases hx
  cases c with
  | positional raw => exact key _ h
  | relative raw => exact key _ h

/-- A write target that resolved exists. -/
theorem writeAddr_ok_lt {s : State} {c : WriteOperand} {n : Nat} (h : writeAddr s c = .ok n) : n < addressLimit := by
  cases c with
  | positional raw => exact (checkAddr_ok h).2.2
  | relative raw => exact (checkAddr_ok h).2.2

/-- What an instruction of format F3 can answer. -/
theorem storeBinary_cases (f : Word → Word → Word) (a b : ReadOperand) (c : WriteOperand) (s : State) :
    (∃ r, (readOp s a = .error r ∨
        (∃ va, readOp s a = .ok va ∧ readOp s b = .error r) ∨
        (∃ va vb, readOp s a = .ok va ∧ readOp s b = .ok vb ∧ writeAddr s c = .error r)) ∧
      storeBinary f a b c s = .next (takeFault r s)) ∨
    (∃ va vb n, readOp s a = .ok va ∧ readOp s b = .ok vb ∧ writeAddr s c = .ok n ∧
      storeBinary f a b c s = .next (advance 3 (storeWord n (f va vb) s))) := by
  cases ha : readOp s a with
  | error r => exact .inl ⟨r, .inl rfl, by simp [storeBinary, ha]⟩
  | ok va =>
    cases hb : readOp s b with
    | error r => exact .inl ⟨r, .inr (.inl ⟨va, rfl, rfl⟩), by simp [storeBinary, ha, hb]⟩
    | ok vb =>
      cases hc : writeAddr s c with
      | error r => exact .inl ⟨r, .inr (.inr ⟨va, vb, rfl, rfl, rfl⟩), by simp [storeBinary, ha, hb, hc]⟩
      | ok n => exact .inr ⟨va, vb, n, rfl, rfl, rfl, by simp [storeBinary, ha, hb, hc]⟩

/-- What a conditional jump can answer. -/
theorem jumpWhen_cases (taken : Word → Bool) (a b : ReadOperand) (s : State) :
    (∃ r, (readOp s a = .error r ∨ (∃ va, readOp s a = .ok va ∧ taken va = true ∧ readOp s b = .error r)) ∧
      jumpWhen taken a b s = .next (takeFault r s)) ∨
    (∃ va target, readOp s a = .ok va ∧ taken va = true ∧ readOp s b = .ok target ∧
      jumpWhen taken a b s = .next (jumpTo target s)) ∨
    (∃ va, readOp s a = .ok va ∧ taken va = false ∧ jumpWhen taken a b s = .next (advance 2 s)) := by
  cases ha : readOp s a with
  | error r => exact .inl ⟨r, .inl rfl, by simp [jumpWhen, ha]⟩
  | ok va =>
    cases ht : taken va with
    | false => exact .inr (.inr ⟨va, rfl, ht, by simp [jumpWhen, ha, ht]⟩)
    | true =>
      cases hb : readOp s b with
      | error r => exact .inl ⟨r, .inr ⟨va, rfl, ht, rfl⟩, by simp [jumpWhen, ha, ht, hb]⟩
      | ok target => exact .inr (.inl ⟨va, target, rfl, ht, rfl, by simp [jumpWhen, ha, ht, hb]⟩)

/-- What `input` can answer. -/
theorem execInput_cases (a : WriteOperand) (s : State) :
    (∃ r, writeAddr s a = .error r ∧ execInput a s = .next (takeFault r s)) ∨
    (∃ n, writeAddr s a = .ok n ∧ s.inq = [] ∧ s.inClosed = true ∧
      execInput a s = .next (takeFault ⟨.inputClosed, 0⟩ s)) ∨
    (∃ n, writeAddr s a = .ok n ∧ s.inq = [] ∧ s.inClosed = false ∧ execInput a s = .next s) ∨
    (∃ n v rest, writeAddr s a = .ok n ∧ s.inq = v :: rest ∧
      execInput a s = .next (advance 1 (storeWord n v (inPop s)))) := by
  cases ha : writeAddr s a with
  | error r => exact .inl ⟨r, rfl, by simp [execInput, ha]⟩
  | ok n =>
    cases hq : s.inq with
    | nil =>
      cases hc : s.inClosed with
      | true => exact .inr (.inl ⟨n, rfl, rfl, rfl, by simp [execInput, ha, inHead, hq, hc]⟩)
      | false => exact .inr (.inr (.inl ⟨n, rfl, rfl, rfl, by simp [execInput, ha, inHead, hq, hc, stall]⟩))
    | cons v rest => exact .inr (.inr (.inr ⟨n, v, rest, rfl, rfl, by simp [execInput, ha, inHead, hq]⟩))

/-- What `output` can answer. -/
theorem execOutput_cases (a : ReadOperand) (s : State) :
    (∃ r, readOp s a = .error r ∧ execOutput a s = .next (takeFault r s)) ∨
    (∃ v, readOp s a = .ok v ∧ outCanPush s = false ∧ execOutput a s = .next s) ∨
    (∃ v, readOp s a = .ok v ∧ outCanPush s = true ∧ execOutput a s = .next (advance 1 (outPush v s))) := by
  cases ha : readOp s a with
  | error r => exact .inl ⟨r, rfl, by simp [execOutput, ha]⟩
  | ok v =>
    cases hp : outCanPush s with
    | false => exact .inr (.inl ⟨v, rfl, rfl, by simp [execOutput, ha, hp, stall]⟩)
    | true => exact .inr (.inr ⟨v, rfl, rfl, by simp [execOutput, ha, hp]⟩)

/-- What `adjust-relative-base` can answer. -/
theorem execAdjustRelativeBase_cases (a : ReadOperand) (s : State) :
    (∃ r, readOp s a = .error r ∧ execAdjustRelativeBase a s = .next (takeFault r s)) ∨
    (∃ v, readOp s a = .ok v ∧ execAdjustRelativeBase a s = .next (advance 1 (adjustRb v s))) := by
  cases ha : readOp s a with
  | error r => exact .inl ⟨r, rfl, by simp [execAdjustRelativeBase, ha]⟩
  | ok v => exact .inr ⟨v, rfl, by simp [execAdjustRelativeBase, ha]⟩

/-- The raw operand words fetched are as many as were asked for. -/
theorem fetchRaws_length {s : State} {n : Nat} {raws : List Word} (h : fetchRaws s n = .ok raws) : raws.length = n := by
  induction n generalizing raws with
  | zero =>
    cases h
    rfl
  | succ n ih =>
    rw [fetchRaws] at h
    split at h
    · cases h
    · rename_i ws hws
      split at h
      · cases h
      · cases h
        simp [ih hws]

/-- A fault of the operand fetch is an InvalidAddress with a negative address. -/
theorem fetchRaws_error {s : State} {n : Nat} {r : Raise} (h : fetchRaws s n = .error r) :
    r.cause = .invalidAddress ∧ r.info.toInt < 0 := by
  induction n with
  | zero => cases h
  | succ n ih =>
    rw [fetchRaws] at h
    split at h
    · rename_i r' hr'
      cases h
      exact ih hr'
    · split at h
      · rename_i r' hr'
        cases h
        rcases memRead_cases s (rawAddr s (n + 1)) with ⟨hn, h'⟩ | ⟨_, h'⟩
        · rw [h'] at hr'
          cases hr'
          exact ⟨rfl, hn⟩
        · rw [h'] at hr'
          cases hr'
      · cases h

/-- What a fetch can answer. -/
theorem fetch_cases (s : State) :
    (s.pc.toInt < 0 ∧ fetch s = .error ⟨.invalidAddress, s.pc⟩) ∨
    (0 ≤ s.pc.toInt ∧ ∃ e, decodeWord (s.mem.read s.pc.toNat) = .error e ∧
      fetch s = .error (decodeRaise (s.mem.read s.pc.toNat) e)) ∨
    (0 ≤ s.pc.toInt ∧ ∃ h r, decodeWord (s.mem.read s.pc.toNat) = .ok h ∧ fetchRaws s h.arity = .error r ∧
      fetch s = .error r) ∨
    (0 ≤ s.pc.toInt ∧ ∃ h raws, decodeWord (s.mem.read s.pc.toNat) = .ok h ∧ fetchRaws s h.arity = .ok raws ∧
      fetch s = .ok (h.instr raws)) := by
  rcases memRead_cases s s.pc with ⟨hn, hr⟩ | ⟨hn, hr⟩
  · exact .inl ⟨hn, by rw [fetch, hr]⟩
  · cases hd : decodeWord (s.mem.read s.pc.toNat) with
    | error e => exact .inr (.inl ⟨hn, e, rfl, by rw [fetch, hr]; simp only [hd]⟩)
    | ok h =>
      cases hf : fetchRaws s h.arity with
      | error r => exact .inr (.inr (.inl ⟨hn, h, r, rfl, hf, by rw [fetch, hr]; simp only [hd, hf]⟩))
      | ok raws => exact .inr (.inr (.inr ⟨hn, h, raws, rfl, hf, by rw [fetch, hr]; simp only [hd, hf]⟩))

/-- What a step can answer: it needs a Running machine, and it enters the fault its fetch raised or executes what it
fetched. -/
theorem step_cases {s t : State} (h : step s = .next t) :
    s.status = .running ∧
      ((∃ r, fetch s = .error r ∧ t = takeFault r s) ∨ (∃ i, fetch s = .ok i ∧ exec i s = .next t)) := by
  cases hs : s.status with
  | halted => simp [step, hs] at h
  | faulted => simp [step, hs] at h
  | running =>
    refine ⟨rfl, ?_⟩
    simp only [step, hs] at h
    rcases resolve_cases (fetch s) s fun i => exec i s with ⟨r, hr, he⟩ | ⟨i, hi, he⟩
    · rw [he] at h
      cases h
      exact .inl ⟨r, hr, rfl⟩
    · rw [he] at h
      exact .inr ⟨i, hi, h⟩

end Sys2Proof.Machine
end

