-- ==== Sys2Proof/Laws/PerInstr.lean ====
section
/-! SUPPORT. The statement family about every instruction as syntax: the form of its encoding. -/

namespace Sys2Proof.Laws.EncodedForm

/-- Every header's word is a legal instruction word: the encoder writes digits of the opcode table only. -/
theorem header_wellFormed (h : Header) : wellFormedWord h.word = true := by
  cases h with
  | add a b c => cases a <;> cases b <;> cases c <;> decide
  | mul a b c => cases a <;> cases b <;> cases c <;> decide
  | input a => cases a <;> decide
  | output a => cases a <;> decide
  | jumpIfTrue a b => cases a <;> cases b <;> decide
  | jumpIfFalse a b => cases a <;> cases b <;> decide
  | lessThan a b c => cases a <;> cases b <;> cases c <;> decide
  | equals a b c => cases a <;> cases b <;> cases c <;> decide
  | adjustRelativeBase a => cases a <;> decide
  | halt => decide

/-- The instruction word of `i` is a legal one, and `1 + arity` words are encoded (spec/30_encoding.md rules R60, R71). -/
def Statement (i : Instr) : Prop :=
  wellFormedWord i.header.word = true ∧ i.raws.length = i.header.arity ∧ (encode i).length = 1 + i.header.arity

theorem add (a b : ReadOperand) (c : WriteOperand) : Statement (.add a b c) :=
  ⟨header_wellFormed _, rfl, rfl⟩

theorem mul (a b : ReadOperand) (c : WriteOperand) : Statement (.mul a b c) :=
  ⟨header_wellFormed _, rfl, rfl⟩

theorem input (a : WriteOperand) : Statement (.input a) :=
  ⟨header_wellFormed _, rfl, rfl⟩

theorem output (a : ReadOperand) : Statement (.output a) :=
  ⟨header_wellFormed _, rfl, rfl⟩

theorem jumpIfTrue (a b : ReadOperand) : Statement (.jumpIfTrue a b) :=
  ⟨header_wellFormed _, rfl, rfl⟩

theorem jumpIfFalse (a b : ReadOperand) : Statement (.jumpIfFalse a b) :=
  ⟨header_wellFormed _, rfl, rfl⟩

theorem lessThan (a b : ReadOperand) (c : WriteOperand) : Statement (.lessThan a b c) :=
  ⟨header_wellFormed _, rfl, rfl⟩

theorem equals (a b : ReadOperand) (c : WriteOperand) : Statement (.equals a b c) :=
  ⟨header_wellFormed _, rfl, rfl⟩

theorem adjustRelativeBase (a : ReadOperand) : Statement (.adjustRelativeBase a) :=
  ⟨header_wellFormed _, rfl, rfl⟩

theorem halt : Statement (.halt) :=
  ⟨header_wellFormed _, rfl, rfl⟩

end Sys2Proof.Laws.EncodedForm
end

