-- ==== Sys2Proof/Machine/Assembly.lean ====
section
/-! DEFINITION. The spec's own notation for instructions (spec/30_encoding.md rules R75, R77), as lists of characters.
What the notation assembles to is `encode`. -/

namespace Sys2Proof.Machine

/-- The short mnemonic (rule R75). -/
def shortName : Instr → String
  | .add _ _ _ => "add"
  | .mul _ _ _ => "mul"
  | .input _ => "in"
  | .output _ => "out"
  | .jumpIfTrue _ _ => "jt"
  | .jumpIfFalse _ _ => "jf"
  | .lessThan _ _ _ => "lt"
  | .equals _ _ _ => "eq"
  | .adjustRelativeBase _ => "arb"
  | .halt => "halt"

/-- `[rb+n]` or `[rb-n]`. -/
def asmRelative (raw : Word) : List Char :=
  if raw.toInt < 0 then "[rb".toList ++ renderWord raw ++ [']'] else "[rb+".toList ++ renderWord raw ++ [']']

/-- `[n]`, `#n` or a relative operand. -/
def asmRead : ReadOperand → List Char
  | .positional raw => '[' :: renderWord raw ++ [']']
  | .immediate raw => '#' :: renderWord raw
  | .relative raw => asmRelative raw

/-- `[n]` or a relative operand; a write operand written with `#` is an assembly error and cannot be expressed. -/
def asmWrite : WriteOperand → List Char
  | .positional raw => '[' :: renderWord raw ++ [']']
  | .relative raw => asmRelative raw

/-- The operands of an instruction, in the order a, b, c. -/
def asmOperands : Instr → List (List Char)
  | .add a b c => [asmRead a, asmRead b, asmWrite c]
  | .mul a b c => [asmRead a, asmRead b, asmWrite c]
  | .input a => [asmWrite a]
  | .output a => [asmRead a]
  | .jumpIfTrue a b => [asmRead a, asmRead b]
  | .jumpIfFalse a b => [asmRead a, asmRead b]
  | .lessThan a b c => [asmRead a, asmRead b, asmWrite c]
  | .equals a b c => [asmRead a, asmRead b, asmWrite c]
  | .adjustRelativeBase a => [asmRead a]
  | .halt => []

/-- Operands separated by commas. -/
def asmJoin : List (List Char) → List Char
  | [] => []
  | x :: xs => ' ' :: x ++ match xs with
    | [] => []
    | y :: ys => ',' :: asmJoin (y :: ys)

/-- A line of the notation: the mnemonic and its operands. -/
def asmLine (i : Instr) : List Char := (shortName i).toList ++ asmJoin (asmOperands i)

/-- A data line, `.word n`. -/
def asmData (w : Word) : List Char := ".word ".toList ++ renderWord w

end Sys2Proof.Machine
end

