-- ==== Sys2Proof/Tests/Slice0.lean ====
section
/-! SUPPORT. The model's own tests: expected values from spec/95_test_vectors.md and the worked examples of the rules,
and for each statement with hypotheses a witness that meets them. -/

namespace Sys2Proof.Tests

open Sys2Proof.Machine

/-- A fresh machine with an open inbound channel that already holds `q`, both channels unbounded. -/
def boot (p q : List Word) : State := State.new p ⟨q, false, .unbounded, .unbounded⟩

/-- The next state of an outcome, if it has one. -/
def after : Host.Outcome State Fault Refusal → Option State
  | .next t => some t
  | .fault _ => none
  | .refused _ => none

/-- What one step leaves at `pc`, `rb` and one word of memory. -/
def seen (s : State) (a : Nat) : Option (Word × Word × Word) := (after (step s)).map fun t => (t.pc, t.rb, t.mem.read a)

/-- How one step ends a run. -/
def ending (s : State) : Option (Status × Cause × Word × Word × Bool) :=
  (after (step s)).map fun t => (t.status, t.cause, t.faultInfo, t.pc, t.outClosed)

/-! ### Ill-formed instruction words: one for each check -/

theorem test_negative_word_is_ill_formed : wellFormedWord (-1) = false := by decide

theorem test_unknown_opcode_is_ill_formed : wellFormedWord 12345 = false := by decide

theorem test_mode_digit_three_is_ill_formed : wellFormedWord 3105 = false := by decide

theorem test_immediate_write_target_is_ill_formed : wellFormedWord 103 = false := by decide

theorem test_ignored_digits_are_well_formed : wellFormedWord 30099 = true := by decide

/-! ### Decoding: one word written out from the encoding for each constructor (section 2.1) -/

theorem test_decode_add : decode [21001, 5, 6, 7, 99] =
    .ok (.add (.positional 5) (.immediate 6) (.relative 7), [99]) := by decide

theorem test_decode_mul : decode [21202, 0, 2, 1] =
    .ok (.mul (.relative 0) (.immediate 2) (.relative 1), []) := by decide

theorem test_decode_input : decode [203, -3] = .ok (.input (.relative (-3)), []) := by decide

theorem test_decode_output : decode [1104, 7] = .ok (.output (.immediate 7), []) := by decide

theorem test_decode_jump_if_true : decode [2105, 1, 4] =
    .ok (.jumpIfTrue (.immediate 1) (.relative 4), []) := by decide

theorem test_decode_jump_if_false : decode [1006, 101, 0] =
    .ok (.jumpIfFalse (.positional 101) (.immediate 0), []) := by decide

theorem test_decode_less_than : decode [107, -1, 0, 20] =
    .ok (.lessThan (.immediate (-1)) (.positional 0) (.positional 20), []) := by decide

theorem test_decode_equals : decode [1008, 100, 16, 101] =
    .ok (.equals (.positional 100) (.immediate 16) (.positional 101), []) := by decide

theorem test_decode_adjust_relative_base : decode [109, 100] = .ok (.adjustRelativeBase (.immediate 100), []) := by decide

theorem test_decode_halt : decode [199] = .ok (.halt, []) := by decide

theorem test_decode_truncated : decode [1101, 1, 2] = .error .truncated := by decide

theorem test_encode_mul : encode (.mul (.relative 0) (.immediate 2) (.relative 1)) = [21202, 0, 2, 1] := by decide

theorem test_table_word : decodeTableWord 8 4 = some (.output (.positional 0)) := by decide

theorem test_table_word_with_operands :
    decodeTableWord 256 (1101 + 20 * 2 ^ 64 + 22 * 2 ^ 128 + 7 * 2 ^ 192) =
      some (.add (.immediate 20) (.immediate 22) (.positional 7)) := by decide

theorem test_fetch_word_runs : after (step (State.reset.withFetchWord 8 4)) =
    after (exec (.output (.positional 0)) (State.reset.withFetchWord 8 4)) := by decide

/-! ### One step of each instruction -/

/-- S1, step 1. -/
theorem test_add : seen (boot [1, 9, 10, 3, 2, 3, 11, 0, 99, 30, 40, 50] []) 3 = some (4, 0, 70) := by decide

/-- Section 2.4: overflow wraps, over the instruction's own word. -/
theorem test_add_wraps : seen (boot [1101, 9223372036854775807, 1, 0, 99] []) 0 =
    some (4, 0, -9223372036854775808) := by decide

/-- Section 2.4: the smallest square that does not fit. -/
theorem test_mul_wraps : seen (boot [1102, 3037000500, 3037000500, 5, 99] []) 5 =
    some (4, 0, -9223372036709301616) := by decide

/-- Section 2.4: -3 times -4. -/
theorem test_mul_signed : seen (boot [1102, -3, -4, 0, 99] []) 0 = some (4, 0, 12) := by decide

/-- Rule R110's example. -/
theorem test_input : (after (step (boot [3, 0, 4, 0, 99] [-7]))).map (fun t => (t.mem.read 0, t.inq, t.pc)) =
    some (-7, [], 2) := by decide

/-- Section 2.5: the address is checked before the value is consumed. -/
theorem test_input_bad_address :
    (after (step { boot [109, -10, 203, 3, 99] [5] with pc := 2, rb := -10 })).map
      (fun t => (t.cause, t.faultInfo, t.pc, t.inq)) = some (.invalidAddress, -7, 2, [5]) := by decide

/-- Section 2.5: `out [rb+5]` with rb 2 pushes M[7] = 5. -/
theorem test_output : (after (step { boot [4, 7, 104, 7, 109, 2, 204, 5, 99] [] with pc := 6, rb := 2, outq := [5, 7] })).map
    (fun t => (t.outq, t.pc)) = some ([5, 7, 5], 8) := by decide

/-- Section 2.5, OUT_CAPACITY = 1: the second `out` waits. -/
theorem test_output_waits :
    condition { boot [104, 1, 104, 2, 99] [] with pc := 2, outq := [1], outCapacity := .bounded 1 } = .waitOut := by decide

/-- Section 2.6: a taken jump writes a negative target. -/
theorem test_jump_if_true : seen (boot [1005, 4, -9, 99, 5] []) 0 = some (-9, 0, 1005) := by decide

/-- Section 2.6: not taken, operand b is not resolved. -/
theorem test_jump_if_true_not_taken : seen (boot [5, 5, -9, 99, 0, 0] []) 0 = some (3, 0, 5) := by decide

/-- Section 2.6. -/
theorem test_jump_if_false : seen (boot [1106, 0, 4, 0, 99] []) 0 = some (4, 0, 1106) := by decide

/-- Section 2.6: not taken. -/
theorem test_jump_if_false_not_taken : seen (boot [6, 0, -2] []) 0 = some (3, 0, 6) := by decide

/-- Section 2.7: signed at the extremes. -/
theorem test_less_than : seen (boot [1107, -9223372036854775808, 9223372036854775807, 5, 99] []) 5 = some (4, 0, 1) := by
  decide

/-- Section 2.7: the whole target word is replaced by 0. -/
theorem test_less_than_zero : seen (boot [1107, 9223372036854775807, -9223372036854775808, 5, 99, 7] []) 5 =
    some (4, 0, 0) := by decide

/-- Section 2.7. -/
theorem test_equals : seen (boot [8, 5, 6, 7, 99, 3, 3, 9] []) 7 = some (4, 0, 1) := by decide

/-- Rule R131's example, other value. -/
theorem test_equals_zero : seen { boot [] [] with mem := [(8, 1008), (9, 100), (10, 16), (11, 101), (100, 3), (101, 77)], pc := 8 } 101 =
    some (12, 0, 0) := by decide

/-- Section 2.8: `arb [rb+9]` with rb -2 reads M[7] = 40. -/
theorem test_adjust_relative_base : seen { boot [109, 5, 109, -7, 209, 9, 99, 40] [] with pc := 4, rb := -2 } 7 =
    some (6, 38, 40) := by decide

/-- Section 2.8: rb wraps. -/
theorem test_adjust_relative_base_wraps :
    seen { boot [109, 9223372036854775807, 109, 1, 204, 0, 99] [] with pc := 2, rb := 9223372036854775807 } 0 =
      some (4, -9223372036854775808, 109) := by decide

/-- Section 2.9. -/
theorem test_halt : ending (boot [30099] []) = some (.halted, .none, 0, 0, true) := by decide

/-- Rule R145: no further step. -/
theorem test_halted_has_no_step : after (step { boot [99] [] with status := .halted }) = none := by decide

/-! ### Faults (sections 2.6 and 2.10) -/

/-- S7. -/
theorem test_illegal_opcode : ending (boot [5000] []) = some (.faulted, .illegalOpcode, 5000, 0, true) := by decide

theorem test_opcode_before_modes : ending (boot [310] []) = some (.faulted, .illegalOpcode, 310, 0, true) := by decide

theorem test_modes_before_operands : ending (boot [301, -1, 0, 0] []) = some (.faulted, .illegalMode, 301, 0, true) := by
  decide

theorem test_first_operand_first : ending (boot [1, -1, -2, -3] []) = some (.faulted, .invalidAddress, -1, 0, true) := by
  decide

theorem test_input_closed : ending { boot [3, 0] [] with inClosed := true } =
    some (.faulted, .inputClosed, 0, 0, true) := by decide

/-- `add` at the highest address: the fetch of raw operand 1 wraps. -/
theorem test_operand_fetch_wraps :
    ending { boot [] [] with mem := [(9223372036854775807, 1)], pc := 9223372036854775807 } =
      some (.faulted, .invalidAddress, -9223372036854775808, 9223372036854775807, true) := by decide

/-! ### Host side -/

/-- Section 2.5, OUT_CAPACITY = 0: the joint transition. -/
theorem test_rendezvous : (hostRecvDirect { boot [104, 1, 104, 2, 99] [] with outCapacity := .bounded 0 }).map
    (fun p => (p.1, p.2.pc, p.2.outq, p.2.outLog)) = some (1, 2, [], [1]) := by decide

/-- Section 2.9: queued output survives the close; the stream has not ended before it is taken. -/
theorem test_end_of_stream : hostEos { boot [] [] with outClosed := true, outq := [9] } = false := by decide

/-- Rule R36: no inspection while Running. -/
theorem test_no_inspection_while_running : hostInspectMem (boot [99] []) 0 = none := by decide

/-! ### Loader and notation (section 2.11, rule R75) -/

theorem test_loader : parseProgram [' ', ' ', '1', '0', '9', ',', '-', '1', ',', '9', '9', ' ', '\r', '\n'] =
    .ok [109, -1, 99] := by decide

theorem test_loader_round_trip :
    parseProgram (renderProgram [-9223372036854775808, 9223372036854775807, 0, -1]) =
      .ok [-9223372036854775808, 9223372036854775807, 0, -1] := by decide

theorem test_loader_trailing_comma : parseProgram ['1', ',', '2', ','] = .error .malformedToken := by decide

theorem test_loader_out_of_range :
    tokenWord ['9', '2', '2', '3', '3', '7', '2', '0', '3', '6', '8', '5', '4', '7', '7', '5', '8', '0', '8'] = none := by
  decide

theorem test_notation : asmLine (.mul (.relative 0) (.immediate 2) (.relative (-1))) =
    ['m', 'u', 'l', ' ', '[', 'r', 'b', '+', '0', ']', ',', ' ', '#', '2', ',', ' ', '[', 'r', 'b', '-', '1', ']'] := by
  decide

/-! ### Witnesses: for each statement with hypotheses, inputs that meet them, at the bounds of each clause -/

/-- The machine after resetting with `p` meets the invariant. -/
theorem boot_inv : MachineInv (boot [104, 7, 99] [5]) :=
  ⟨by decide, by decide, by decide, rfl, by decide, List.suffix_refl _, by decide⟩

theorem witness_Wrap64IsTheUniqueCongruentWord :
    ((-(2 ^ 63) : Int) ≤ -(2 ^ 63) ∧ (-(2 ^ 63) : Int) ≤ 2 ^ 63 - 1 ∧ (-(2 ^ 63) : Int) % 2 ^ 64 = 2 ^ 63 % 2 ^ 64) ∧
    ((-(2 ^ 63) : Int) ≤ 2 ^ 63 - 1 ∧ (2 ^ 63 - 1 : Int) ≤ 2 ^ 63 - 1) := by decide

theorem witness_DecodeWordFollowsTheOpcodeMap :
    rowOf 98 = none ∧ rowOf (-9223372036854775808) = none ∧
    rowOf 10001 = some ⟨"add", 1, [.read, .read, .write]⟩ ∧ legalModes 10001 [.read, .read, .write] 2 = false ∧
    rowOf 20001 = some ⟨"add", 1, [.read, .read, .write]⟩ ∧ legalModes 20001 [.read, .read, .write] 2 = true := by decide

theorem witness_IgnoredDigitsDoNotMatter :
    decodeWord 1104 = .ok (.output .immediate) ∧ 0 ≤ (104 : Word).toInt ∧
      (104 : Word).toNat % 10 ^ (1 + 2) = (1104 : Word).toNat % 10 ^ (1 + 2) := by decide

theorem witness_MemoryReadAnswersTheStoredWord :
    (-1 : Word).toInt < 0 ∧ 0 ≤ (9223372036854775807 : Word).toInt ∧ 0 ≤ (0 : Word).toInt ∧
      ∀ c ∈ (boot [0, 7] []).mem, c.1 ≠ (0 : Word).toNat := by decide

theorem witness_MemoryWriteThenRead : (-1 : Word).toInt < 0 ∧ 0 ≤ (9223372036854775807 : Word).toInt ∧ (1 : Word) ≠ 0 := by
  decide

theorem witness_CanonicalMemoriesThatReadTheSameAreEqual :
    Memory.wf [(0, 7), (9223372036854775807, 1)] ∧
      ∀ a, Memory.read [(0, 7), (9223372036854775807, 1)] a = Memory.read [(0, 7), (9223372036854775807, 1)] a :=
  ⟨by decide, fun _ => rfl⟩

theorem witness_ResetIsAFreshConstruction : 1 < ([109, 5] : List Word).length ∧ ([109, 5] : List Word).length ≤ 2 := by decide

theorem witness_ResetMeetsTheInvariant :
    ([109, 5] : List Word).length ≤ addressLimit ∧ (Capacity.bounded 1) ≠ .bounded 0 := by decide

theorem witness_EveryStepKeepsTheInvariant :
    MachineInv (boot [104, 7, 99] [5]) ∧ (after (step (boot [104, 7, 99] [5]))).isSome = true := ⟨boot_inv, by decide⟩

theorem witness_EveryMoveKeepsTheInvariant :
    MachineInv (boot [104, 7, 99] [5]) ∧ (fire .step (boot [104, 7, 99] [5])).isSome = true ∧
      (fire (.send 1) (boot [104, 7, 99] [5])).isSome = true := ⟨boot_inv, by decide, by decide⟩

theorem witness_StepRunsTheDecodedInstruction :
    (boot [104, 7, 99] []).status = .running ∧ memRead (boot [104, 7, 99] []) 0 = .ok 104 ∧
      decodeWord 104 = .ok (.output .immediate) ∧ fetchRaws (boot [104, 7, 99] []) 1 = .ok [7] := by decide

/-- A machine at `pc` with `w` there and nothing else in memory. -/
def oneWordAt (pc w : Word) : State := { boot [] [] with mem := [(pc.toNat, w)], pc := pc }

/-- `halt` at the highest address. -/
theorem witness_PlacedInstructionIsExecuted :
    (oneWordAt 9223372036854775807 99).status = .running ∧ 0 ≤ (oneWordAt 9223372036854775807 99).pc.toInt ∧
    (oneWordAt 9223372036854775807 99).pc.toNat + (encode .halt).length ≤ addressLimit ∧
    ∀ k, k < (encode .halt).length →
      (oneWordAt 9223372036854775807 99).mem.read ((oneWordAt 9223372036854775807 99).pc.toNat + k) =
        (encode .halt).getD k 0 := by decide

theorem witness_InstructionFetchIsAMemoryRead :
    (boot [] []).status = .running ∧ (-1 : Word).toInt < 0 ∧ 0 ≤ (boot [] []).pc.toInt ∧
      (∀ c ∈ (boot [] []).mem, c.1 ≠ (boot [] []).pc.toNat) ∧
    decodeWord ((boot [103] []).mem.read 0) = .error .illegalMode ∧
    decodeWord ((boot [109, 5] []).mem.read 0) = .ok (.adjustRelativeBase .immediate) ∧
    fetchRaws (boot [109, 5] []) 1 = .ok [5] := by decide

/-- The third raw operand word of an `add` three words below the top is the first that wraps. -/
theorem witness_FetchFaultsComeInOrder :
    ((oneWordAt 9223372036854775805 1).status = .running ∧ 0 ≤ (oneWordAt 9223372036854775805 1).pc.toInt ∧
      decodeWord ((oneWordAt 9223372036854775805 1).mem.read (oneWordAt 9223372036854775805 1).pc.toNat) =
        .ok (.add .positional .positional .positional) ∧
      (∀ j, j < 3 → 1 ≤ j → 0 ≤ (rawAddr (oneWordAt 9223372036854775805 1) j).toInt) ∧
      (rawAddr (oneWordAt 9223372036854775805 1) 3).toInt < 0) ∧
    ((boot [5000] []).status = .running ∧ decodeWord ((boot [5000] []).mem.read 0) = .error .illegalOpcode) ∧
    ((boot [301] []).status = .running ∧ decodeWord ((boot [301] []).mem.read 0) = .error .illegalMode) := by decide

theorem witness_StepAnswersExactlyWhileRunning :
    (boot [] []).status = .running ∧ (enterHalted (boot [] [])).status = .halted ∧
      (takeFault ⟨.invalidAddress, -1⟩ (boot [] [])).status = .faulted := by decide

/-- Both bounds of each mode: address 0 and -1, with `rb` 10. -/
theorem witness_ReadOperandsResolveThroughTheirMode :
    0 ≤ (0 : Word).toInt ∧ (-1 : Word).toInt < 0 ∧
    0 ≤ (wrap64 ((-10 : Word).toInt + ({ boot [] [] with rb := 10 } : State).rb.toInt)).toInt ∧
    (wrap64 ((-11 : Word).toInt + ({ boot [] [] with rb := 10 } : State).rb.toInt)).toInt < 0 := by decide

theorem witness_WriteOperandsNameTheirAddress :
    0 ≤ (9223372036854775807 : Word).toInt ∧ (-9223372036854775808 : Word).toInt < 0 ∧
    0 ≤ (wrap64 ((-10 : Word).toInt + ({ boot [] [] with rb := 10 } : State).rb.toInt)).toInt ∧
    (wrap64 ((9223372036854775807 : Word).toInt + ({ boot [] [] with rb := 10 } : State).rb.toInt)).toInt < 0 := by decide

/-- The clauses of `BinaryRule`, for add, mul, less-than and equals alike. -/
theorem witness_BinaryRule :
    (readable (boot [] []) (.positional 0) = true ∧ readable (boot [] []) (.immediate (-1)) = true ∧
      writable (boot [] []) (.positional 9223372036854775807) = true) ∧
    readable (boot [] []) (.positional (-1)) = false ∧ readable (boot [] []) (.relative (-1)) = false ∧
    writable (boot [] []) (.relative (-1)) = false := by decide

theorem witness_InputStoresTheOldestValue :
    writable (boot [3, 0] [-7]) (.positional 0) = true ∧ (boot [3, 0] [-7]).inq = -7 :: [] := by decide

theorem witness_InputWithNothingToStore :
    writable (boot [3, 0] []) (.positional (-1)) = false ∧
    (writable (boot [3, 0] []) (.positional 0) = true ∧ (boot [3, 0] []).inq = [] ∧ (boot [3, 0] []).inClosed = false ∧
      fetch (boot [3, 0] []) = .ok (.input (.positional 0)) ∧ (boot [3, 0] []).status = .running) ∧
    (hostCloseIn (boot [3, 0] [])).inClosed = true ∧ (hostCloseIn (boot [3, 0] [])).inq = [] := by decide

/-- Room for the last value that fits, and no room at that length. -/
theorem witness_OutputEmitsItsOperand :
    (∀ n, ({ boot [104, 7] [] with outCapacity := .bounded 1 } : State).outCapacity = .bounded n →
      (boot [104, 7] []).outq.length < n) ∧ readable (boot [104, 7] []) (.immediate 7) = true ∧
    readable (boot [104, 7] []) (.positional (-1)) = false :=
  ⟨fun n h => by cases h; decide, by decide, by decide⟩

/-- A machine at `output #7` whose outbound channel holds 1 and has no more room. -/
def fullOutput : State := { boot [104, 7] [] with outq := [1], outLog := [1], outCapacity := .bounded 1 }

theorem witness_OutputWithoutRoomWaits :
    readable fullOutput (.immediate 7) = true ∧ fullOutput.outCapacity = .bounded 1 ∧ 1 ≤ fullOutput.outq.length ∧
    fullOutput.status = .running ∧ fetch fullOutput = .ok (.output (.immediate 7)) := by decide

/-- The clauses of `JumpRule`, for both jumps: a condition of -1 and of 0, both kinds of target, a negative target, and
a jump two words below the top, whose second raw operand word wraps. -/
theorem witness_JumpRule :
    (readable (boot [] []) (.immediate (-1)) = true ∧ readValue (boot [] []) (.immediate (-1)) ≠ 0 ∧
      readable (boot [] []) (.immediate (-9)) = true ∧ (readValue (boot [] []) (.immediate (-9))).toInt < 0) ∧
    (readable (boot [] []) (.positional 9) = true ∧ readValue (boot [] []) (.positional 9) = 0) ∧
    readable (boot [] []) (.positional (-2)) = false ∧
    (memRead (oneWordAt 9223372036854775806 5) 9223372036854775806 =
        .ok (Instr.jumpIfTrue (.positional 0) (.positional 0)).header.word ∧
      memRead (oneWordAt 9223372036854775806 6) 9223372036854775806 =
        .ok (Instr.jumpIfFalse (.positional 0) (.positional 0)).header.word ∧
      (oneWordAt 9223372036854775806 5).status = .running ∧
      0 ≤ (rawAddr (oneWordAt 9223372036854775806 5) 1).toInt ∧
      (rawAddr (oneWordAt 9223372036854775806 5) 2).toInt < 0) := by decide

theorem witness_AdjustRelativeBaseAddsItsOperand :
    readable (boot [] []) (.immediate 9223372036854775807) = true ∧ readable (boot [] []) (.positional (-1)) = false ∧
    (after (exec (.adjustRelativeBase (.immediate (-1))) (boot [] []))).map (·.rb) = some (-1) := by decide

theorem witness_HaltEndsTheRun :
    (boot [30099] []).status = .running ∧ 0 ≤ (boot [30099] []).pc.toInt ∧
    0 ≤ ((boot [30099] []).mem.read 0).toInt ∧ ((boot [30099] []).mem.read 0).toNat % 100 = 99 ∧
    (after (exec .halt (boot [30099] []))).isSome = true ∧
    (fire (.send 1) (enterHalted (boot [30099] []))).isSome = true := by decide

/-- Both outcomes of the frame of a storing instruction: it stores, and it faults. -/
theorem witness_StoringInstructionsChangeOnlyTheTargetWord :
    ((after (exec (.add (.immediate 1) (.immediate 2) (.positional 0)) (boot [] []))).map (·.status) = some .running) ∧
    ((after (exec (.equals (.immediate 1) (.immediate 2) (.positional (-1))) (boot [] []))).map (·.status) =
      some .faulted) := by decide

theorem witness_InputChangesOnlyTheTargetWordAndItsQueue :
    ((after (exec (.input (.positional 0)) (boot [] [5]))).map (·.inq) = some []) ∧
    ((after (exec (.input (.positional (-1))) (boot [] [5]))).map (·.inq) = some [5]) := by decide

theorem witness_NonStoringInstructionsKeepMemory :
    stores (.output (.immediate 1)) = false ∧ stores .halt = false ∧
    (after (exec (.output (.immediate 1)) (boot [] []))).isSome = true ∧ (after (exec .halt (boot [] []))).isSome = true ∧
    (after (exec (.adjustRelativeBase (.positional (-1))) (boot [] []))).isSome = true := by decide

/-- The three ways of `pc`: on, to a target, and unchanged. -/
theorem witness_ProgramCounterMovesOnlyAsTheRulesSay :
    ((after (exec (.mul (.immediate 1) (.immediate 2) (.positional 0)) (boot [] []))).map (·.pc) = some 4) ∧
    ((after (exec (.jumpIfTrue (.immediate 1) (.immediate (-9))) (boot [] []))).map (·.pc) = some (-9)) ∧
    ((after (exec (.input (.positional 0)) (boot [] []))) = some (boot [] [])) := by decide

theorem witness_OnlyAdjustRelativeBaseWritesRb :
    (after (step (boot [109, 5] []))).map (·.rb) = some 5 ∧ (boot [109, 5] []).rb ≠ 5 := by decide

theorem witness_AStepWritesAtMostOneWord :
    (after (step (boot [1101, 1, 2, 50] []))).map (·.mem.read 50) = some 3 ∧ (boot [1101, 1, 2, 50] []).mem.read 50 ≠ 3 := by
  decide

theorem witness_FaultsArePrecise : (after (step (boot [] []))).map (·.status) = some .faulted := by decide

/-- One faulting step for each cause. -/
theorem witness_FaultInfoHoldsTheDetail :
    (after (step (boot [4, -1] []))).map (·.cause) = some .invalidAddress ∧
    (after (step (boot [] []))).map (·.cause) = some .illegalOpcode ∧
    (after (step (boot [103] []))).map (·.cause) = some .illegalMode ∧
    (after (step (hostCloseIn (boot [3, 0] [])))).map (·.cause) = some .inputClosed := by decide

theorem witness_OnlyInputAndOutputWait :
    condition (boot [3, 0] []) = .waitIn ∧
    condition { boot [104, 7] [] with outCapacity := .bounded 0 } = .waitOut ∧
    condition (boot [104, 7] []) = .run ∧ (boot [104, 7] []).status = .running := by decide

theorem witness_TheHostCanLiftEveryWait :
    condition { boot [3, 0] [] with inCapacity := .bounded 1 } = .waitIn ∧ Capacity.bounded 1 ≠ .bounded 0 ∧
    (condition { boot [104, 7] [] with outq := [1], outCapacity := .bounded 1 } = .waitOut ∧
      fitsCapacity (.bounded 1) ([1] : List Word).length = true) ∧
    condition { boot [104, 7] [] with outCapacity := .bounded 0 } = .waitOut := by decide

theorem witness_AnEndedRunStaysEnded :
    (enterHalted (boot [] [])).status ≠ .running ∧ (fire (.send 1) (enterHalted (boot [] []))).isSome = true := by decide

theorem witness_TheHostTellsTheOutcomesApart : MachineInv (boot [104, 7, 99] [5]) := boot_inv

/-- A machine at `output #7` that agrees with `boot [104, 7] [1]` on the listed state and on nothing else. -/
def otherOutput : State :=
  { boot [104, 7] [1] with inq := [1, 2], outq := [3], outLog := [3], outCapacity := .bounded 2, faultInfo := 9 }

theorem witness_AStepDependsOnlyOnTheListedState :
    otherOutput.pc = (boot [104, 7] [1]).pc ∧ otherOutput.rb = (boot [104, 7] [1]).rb ∧
    otherOutput.mem = (boot [104, 7] [1]).mem ∧ otherOutput.status = (boot [104, 7] [1]).status ∧
    otherOutput.inq.head? = (boot [104, 7] [1]).inq.head? ∧ otherOutput.inClosed = (boot [104, 7] [1]).inClosed ∧
    outCanPush otherOutput = outCanPush (boot [104, 7] [1]) ∧ (after (step (boot [104, 7] [1]))).isSome = true := by decide

theorem witness_BothChannelsAreFifo :
    MachineInv (boot [104, 7, 99] [5]) ∧
    (fireAll [.send 6, .step, .recv, .step, .closeIn] (boot [104, 7, 99] [5])).map (·.2) = some ⟨[6], [], [7], [7]⟩ :=
  ⟨boot_inv, by decide⟩

theorem witness_SendingCommutesWithAStep :
    condition (boot [3, 0] [5]) = .run ∧ (after (step (boot [3, 0] [5]))).isSome = true ∧
      (hostSend 6 (boot [3, 0] [5])).isSome = true := by decide

theorem witness_ReceivingCommutesWithAStep :
    condition { boot [104, 7] [] with outq := [1] } = .run ∧
    (after (step { boot [104, 7] [] with outq := [1] })).isSome = true ∧
    (hostRecv { boot [104, 7] [] with outq := [1] }).isSome = true := by decide

theorem witness_CapacitiesNeverChangeWhatAStepDoes :
    condition (boot [104, 7] []) = .run ∧ condition { boot [104, 7] [] with outCapacity := .bounded 1 } = .run ∧
    (after (step (boot [104, 7] []))).isSome = true := by decide

theorem witness_UnbufferedOutputIsOneJointTransition :
    ({ boot [104, 7] [] with outCapacity := .bounded 0 } : State).status = .running ∧
    fetch { boot [104, 7] [] with outCapacity := .bounded 0 } = .ok (.output (.immediate 7)) ∧
    readable { boot [104, 7] [] with outCapacity := .bounded 0 } (.immediate 7) = true ∧
    fetch { boot [4, -1] [] with outCapacity := .bounded 0 } = .ok (.output (.positional (-1))) ∧
    readable { boot [4, -1] [] with outCapacity := .bounded 0 } (.positional (-1)) = false := by decide

/-- Machine 0 emits 7, machine 1 stores what it is fed at address 0; `c` is the capacity of the connection. -/
def pair (c : Capacity) : Network := ⟨[{ boot [104, 7, 99] [] with outCapacity := c }, boot [3, 0, 99] []], [⟨0, 1⟩]⟩

/-- Two machines that feed each other: 0 emits 7 and then takes a value, 1 takes a value and emits it. -/
def ring (c : Capacity) : Network :=
  ⟨[{ boot [104, 7, 3, 0, 99] [] with outCapacity := c }, { boot [3, 0, 4, 0, 99] [] with outCapacity := c }],
    [⟨0, 1⟩, ⟨1, 0⟩]⟩

/-- What machine `k` of a network holds at address 0. -/
def held (k : Nat) (net : Network) : Option Word := (net.machine k).map (·.mem.read 0)

/-- B's output feeds A's input as A's output feeds B's: 7 goes round the ring, buffered. -/
theorem test_ring_buffered :
    ((fireNetAll [.move 0 .step, .move 1 .step, .move 1 .step, .move 0 .step] (ring .unbounded)).bind
      fun r => held 0 r.1) = some 7 := by decide

/-- The same over two unbuffered connections. -/
theorem test_ring_unbuffered :
    ((fireNetAll [.transfer 0 1, .transfer 1 0] (ring (.bounded 0))).bind fun r => held 0 r.1) = some 7 ∧
    fireNet (.transfer 1 0) (ring (.bounded 0)) = none := by decide

/-- A pipeline of three: the middle machine passes the value on. -/
theorem test_pipeline_of_three :
    ((fireNetAll [.move 0 .step, .move 1 .step, .move 1 .step, .move 2 .step]
      ⟨[boot [104, 7, 99] [], boot [3, 0, 4, 0, 99] [], boot [3, 0, 99] []], [⟨0, 1⟩, ⟨1, 2⟩]⟩).bind
      fun r => held 2 r.1) = some 7 := by decide

theorem witness_WiredMachinesShareOneFifo :
    ((pair .unbounded).wired ∧ (⟨0, 1⟩ : Wire) ∈ (pair .unbounded).wires ∧
      ((pair .unbounded).machine 0).isSome = true ∧ ((pair .unbounded).machine 1).isSome = true ∧
      (fireNet (.move 0 .step) (pair .unbounded)).isSome = true) ∧
    ((ring (.bounded 0)).wired ∧ ((fireNet (.transfer 0 1) (ring (.bounded 0))).map fun r => consumedBy 1 r.2) =
      some [7]) := by decide

theorem witness_NetworkRunsDeliverInOrder :
    (ring .unbounded).wired ∧ (⟨1, 0⟩ : Wire) ∈ (ring .unbounded).wires ∧
    ((ring .unbounded).machine 0).isSome = true ∧ ((ring .unbounded).machine 1).isSome = true ∧
    ((fireNetAll [.move 0 .step, .move 1 .step, .move 1 .step, .move 0 .step] (ring .unbounded)).map
      fun r => (emittedBy 1 r.2, consumedBy 0 r.2)) = some ([7], [7]) := by decide

theorem witness_MachinesShareOnlyChannels :
    (ring .unbounded).wired ∧ (fireNet (.move 0 .step) (ring .unbounded)).isSome = true ∧
    ((ring .unbounded).machine 1).isSome = true ∧ (NetMove.move 0 .step).moves 1 = false ∧
    (∀ k, (⟨1, k⟩ : Wire) ∈ (pair .unbounded).wires → (NetMove.move 0 .step).moves k = false) ∧
    (∀ k, (⟨k, 0⟩ : Wire) ∈ (pair .unbounded).wires → (NetMove.move 1 .step).moves k = false) :=
  ⟨by decide, by decide, by decide, by decide, by simp [pair], by simp [pair]⟩

/-- Machine 0 has halted; `q` is what it left in the channel. -/
def endedPair (q : List Word) : Network :=
  ⟨[{ enterHalted (boot [99] []) with outq := q, outLog := q }, boot [3, 0, 99] []], [⟨0, 1⟩]⟩

theorem witness_AnEndedFeederLeavesItsQueueThenClosed :
    (endedPair [5, 6]).wired ∧ ((endedPair [5, 6]).machine 0).map (fun a => (a.outClosed, a.outq)) = some (true, [5, 6]) ∧
    ((endedPair []).machine 0).map (fun a => (a.outClosed, a.outq)) = some (true, []) ∧
    ((endedPair []).machine 1).map (fun b => (b.status, (fetch b).toOption, writable b (.positional 0))) =
      some (.running, some (.input (.positional 0)), true) := by decide

theorem witness_UnbufferedWireIsOneJointTransition :
    (pair (.bounded 0)).wired ∧
    ((pair (.bounded 0)).machine 0).map (fun a => (a.outCapacity, a.outq, a.outClosed, a.status)) =
      some (.bounded 0, [], false, .running) ∧
    ((pair (.bounded 0)).machine 0).map (fun a => ((fetch a).toOption, readable a (.immediate 7))) =
      some (some (.output (.immediate 7)), true) ∧
    ((pair (.bounded 0)).machine 1).map (fun b => (b.status, (fetch b).toOption, writable b (.positional 0))) =
      some (.running, some (.input (.positional 0)), true) := by decide

/-- Machine 0 has an unwired inbound and a wired outbound end, machine 1 the reverse with `q` in its outbound
queue. -/
def fedPair (q : List Word) : Network :=
  ⟨[boot [104, 7, 99] [], { boot [3, 0, 99] [] with outq := q, outLog := q }], [⟨0, 1⟩]⟩

/-- At the open inbound end of machine 0 a send and a close, at the open outbound end of machine 1 a receive, with
capacity 0 a direct receive, and a step of a machine wired at both ends. -/
theorem witness_TheHostHoldsExactlyTheUnwiredEnds :
    ((fedPair [5]).wired ∧ (⟨0, 1⟩ : Wire) ∈ (fedPair [5]).wires) ∧
    (((fedPair [5]).machine 0).bind (fire (.send 1))).isSome = true ∧
    (((fedPair [5]).machine 0).bind (fire .closeIn)).isSome = true ∧
    (∀ i, (⟨i, 0⟩ : Wire) ∉ (fedPair [5]).wires) ∧
    (((fedPair [5]).machine 1).bind (fire .recv)).isSome = true ∧
    (∀ j, (⟨1, j⟩ : Wire) ∉ (fedPair [5]).wires) ∧
    ((⟨[{ boot [104, 7] [] with outCapacity := .bounded 0 }], []⟩ : Network).machine 0).bind (fire .recvDirect) ≠ none ∧
    ((ring .unbounded).wired ∧ (((ring .unbounded).machine 0).bind (fire .step)).isSome = true) :=
  ⟨by decide, by decide, by decide, by simp [fedPair], by decide, by simp [fedPair], by decide, by decide⟩

theorem witness_EachMachineHasItsOwnReset :
    (pair .unbounded).wired ∧ ((pair .unbounded).machine 0).isSome = true ∧ (pair .unbounded).feeder 0 = none ∧
    ((pair .unbounded).machine 1).isSome = true ∧ (pair .unbounded).feeder 1 ≠ none ∧
    (⟨1, 0⟩ : Wire) ∉ (pair .unbounded).wires ∧ (⟨0, 1⟩ : Wire) ∈ (pair .unbounded).wires := by decide

theorem witness_ProgramTextReadsBack :
    ([-9223372036854775808] : List Word) ≠ [] ∧ [' ', '\t'].all isBlank = true ∧ ['\n'].all isBlank = true := by decide

/-- An empty last token, and a foreign character. -/
theorem witness_MalformedProgramTextIsRefused :
    [] ∈ splitCommas (trimText ['1', ',']) ∧
    ∃ c ∈ trimText ['1', 'x'], c ≠ ',' ∧ c ≠ '-' ∧ ¬ (48 ≤ c.toNat ∧ c.toNat ≤ 57) :=
  ⟨by decide, 'x', by decide, by decide, by decide, by decide⟩

end Sys2Proof.Tests
end

/-! SUPPORT. `wrap64` (spec/00_scope.md rule R6): its signed value, and the two's-complement adder and multiplier. -/

namespace Sys2Proof.Machine

/-- The signed value of `wrap64 z` is the balanced remainder of `z` modulo 2^64. -/
theorem wrap64_toInt (z : Int) : (wrap64 z).toInt = z.bmod (2 ^ 64) := BitVec.toInt_ofInt z

theorem wrap64_toInt_emod (z : Int) : (wrap64 z).toInt % 2 ^ 64 = z % 2 ^ 64 := by
  rw [wrap64_toInt]
  exact Int.bmod_emod

theorem wrap64_toInt_of_inRange {z : Int} (hlo : -(2 ^ 63) ≤ z) (hhi : z ≤ 2 ^ 63 - 1) : (wrap64 z).toInt = z := by
  rw [wrap64_toInt]
  exact Int.bmod_eq_of_le (by omega) (by omega)

/-- `wrap64` sees its argument modulo 2^64 only. -/
theorem wrap64_congr {y z : Int} (h : y % 2 ^ 64 = z % 2 ^ 64) : wrap64 y = wrap64 z := by
  have hcast : y % ((2 ^ 64 : Nat) : Int) = z % ((2 ^ 64 : Nat) : Int) := h
  apply BitVec.eq_of_toInt_eq
  rw [wrap64_toInt, wrap64_toInt, ← Int.emod_bmod y, ← Int.emod_bmod z, hcast]

/-- A word is what `wrap64` gives for its own value. -/
@[simp] theorem wrap64_toInt_self (x : Word) : wrap64 x.toInt = x := BitVec.ofInt_toInt

/-- The 64-bit adder is `wrap64` of the exact sum. -/
theorem wrap64_add (y z : Int) : wrap64 (y + z) = wrap64 y + wrap64 z := BitVec.ofInt_add y z

/-- The 64-bit multiplier is `wrap64` of the exact product. -/
theorem wrap64_mul (y z : Int) : wrap64 (y * z) = wrap64 y * wrap64 z := BitVec.ofInt_mul y z

/-- Settles O1: range and congruence are those of the balanced remainder, and uniqueness holds because congruent
integers have the same `wrap64`, which fixes the integers in range. -/
theorem wrap64IsTheUniqueCongruentWord : Obligations.Wrap64IsTheUniqueCongruentWord := by
  refine ⟨fun z => ⟨?_, ?_, wrap64_toInt_emod z⟩, fun z v hlo hhi hcong => ?_, fun z => wrap64_toInt_of_inRange,
    fun x y => ⟨?_, ?_⟩⟩
  · exact BitVec.le_toInt (wrap64 z)
  · exact Int.le_sub_one_of_lt (BitVec.toInt_lt (x := wrap64 z))
  · rw [← wrap64_congr hcong, wrap64_toInt_of_inRange hlo hhi]
  · rw [wrap64_add, wrap64_toInt_self, wrap64_toInt_self]
  · rw [wrap64_mul, wrap64_toInt_self, wrap64_toInt_self]

end Sys2Proof.Machine

/-! SUPPORT. Which fields the fetch and the operands look at, and the conditions of spec/42_io.md rule R119 in terms of
them. -/

namespace Sys2Proof.Machine

/-! ### What a fetch and an operand depend on -/

section Congruence

variable {s t : State}

theorem memRead_congr (hmem : t.mem = s.mem) (a : Word) : memRead t a = memRead s a := by
  simp only [memRead, hmem]

theorem fetchRaws_congr (hpc : t.pc = s.pc) (hmem : t.mem = s.mem) (n : Nat) : fetchRaws t n = fetchRaws s n := by
  induction n with
  | zero => rfl
  | succ n ih => simp only [fetchRaws, ih, rawAddr, hpc, memRead_congr hmem]

/-- The fetched instruction depends on `pc` and the memory only. -/
theorem fetch_congr (hpc : t.pc = s.pc) (hmem : t.mem = s.mem) : fetch t = fetch s := by
  simp only [fetch, hpc, memRead_congr hmem, fetchRaws_congr hpc hmem]

/-- A read operand depends on `rb` and the memory only. -/
theorem readOp_congr (hrb : t.rb = s.rb) (hmem : t.mem = s.mem) (a : ReadOperand) : readOp t a = readOp s a := by
  cases a with
  | positional raw => exact memRead_congr hmem raw
  | immediate raw => rfl
  | relative raw => simp only [readOp, relativeAddr, hrb, memRead_congr hmem]

/-- The target of a write operand depends on `rb` only. -/
theorem writeAddr_congr (hrb : t.rb = s.rb) (c : WriteOperand) : writeAddr t c = writeAddr s c := by
  cases c with
  | positional raw => rfl
  | relative raw => simp only [writeAddr, relativeAddr, hrb]

theorem inputTarget_congr (hpc : t.pc = s.pc) (hrb : t.rb = s.rb) (hmem : t.mem = s.mem) :
    inputTarget t = inputTarget s := by
  simp only [inputTarget, fetch_congr hpc hmem, writeAddr_congr hrb]

theorem outputValue_congr (hpc : t.pc = s.pc) (hrb : t.rb = s.rb) (hmem : t.mem = s.mem) :
    outputValue t = outputValue s := by
  simp only [outputValue, fetch_congr hpc hmem, readOp_congr hrb hmem]

end Congruence

/-! ### The conditions -/

theorem inputTarget_eq_some_iff {s : State} {n : Nat} :
    inputTarget s = some n ↔ ∃ a, fetch s = .ok (.input a) ∧ writeAddr s a = .ok n := by
  constructor
  · intro h
    unfold inputTarget at h
    split at h
    · rename_i a hf
      split at h
      · rename_i m hw
        cases h
        exact ⟨a, hf, hw⟩
      · cases h
    · cases h
  · rintro ⟨a, hf, hw⟩
    simp only [inputTarget, hf, hw]

theorem outputValue_eq_some_iff {s : State} {v : Word} :
    outputValue s = some v ↔ ∃ a, fetch s = .ok (.output a) ∧ readOp s a = .ok v := by
  constructor
  · intro h
    unfold outputValue at h
    split at h
    · rename_i a hf
      split at h
      · rename_i w hr
        cases h
        exact ⟨a, hf, hr⟩
      · cases h
    · cases h
  · rintro ⟨a, hf, hr⟩
    simp only [outputValue, hf, hr]

/-- The instruction at `pc` is not both an `input` and an `output`. -/
theorem outputValue_eq_none_of_inputTarget {s : State} (h : (inputTarget s).isSome = true) : outputValue s = none := by
  obtain ⟨n, hn⟩ := Option.isSome_iff_exists.mp h
  obtain ⟨a, hf, -⟩ := inputTarget_eq_some_iff.mp hn
  simp only [outputValue, hf]

/-- A machine that is not Running neither waits nor runs. -/
theorem status_eq_running_of_condition {s : State} (h : condition s ≠ .halted) (h' : condition s ≠ .faulted) :
    s.status = .running := by
  cases hs : s.status with
  | running => rfl
  | halted => simp [condition, hs] at h
  | faulted => simp [condition, hs] at h'

/-- The condition of a Running machine, its tests read as statements. -/
theorem condition_of_running {s : State} (hs : s.status = .running) :
    condition s =
      if (inputTarget s).isSome = true ∧ s.inq = [] ∧ s.inClosed = false then .waitIn
      else if (outputValue s).isSome = true ∧ outCanPush s = false then .waitOut
      else .run := by
  simp [condition, hs, and_assoc]

theorem condition_eq_waitIn_iff {s : State} :
    condition s = .waitIn ↔
      s.status = .running ∧ (inputTarget s).isSome = true ∧ s.inq = [] ∧ s.inClosed = false := by
  constructor
  · intro h
    have hs : s.status = .running := status_eq_running_of_condition (by simp [h]) (by simp [h])
    rw [condition_of_running hs] at h
    split_ifs at h with hin
    exact ⟨hs, hin⟩
  · rintro ⟨hs, hin⟩
    rw [condition_of_running hs, if_pos hin]

theorem condition_eq_waitOut_iff {s : State} :
    condition s = .waitOut ↔ s.status = .running ∧ (outputValue s).isSome = true ∧ outCanPush s = false := by
  constructor
  · intro h
    have hs : s.status = .running := status_eq_running_of_condition (by simp [h]) (by simp [h])
    rw [condition_of_running hs] at h
    split_ifs at h with _ hout
    exact ⟨hs, hout⟩
  · rintro ⟨hs, hout⟩
    have hin : ¬ ((inputTarget s).isSome = true ∧ s.inq = [] ∧ s.inClosed = false) := by
      rintro ⟨h, -⟩
      simp [outputValue_eq_none_of_inputTarget h] at hout
    rw [condition_of_running hs, if_neg hin, if_pos hout]

theorem condition_eq_run_of_not_waiting {s : State} (hs : s.status = .running)
    (hin : ¬ ((inputTarget s).isSome = true ∧ s.inq = [] ∧ s.inClosed = false))
    (hout : ¬ ((outputValue s).isSome = true ∧ outCanPush s = false)) : condition s = .run := by
  rw [condition_of_running hs, if_neg hin, if_neg hout]

/-- A machine at an `input` whose target resolves runs once its queue is not empty or its channel is closed. -/
theorem condition_eq_run_of_inputTarget {s : State} (hs : s.status = .running) (hin : (inputTarget s).isSome = true)
    (h : s.inq = [] → s.inClosed = true) : condition s = .run := by
  refine condition_eq_run_of_not_waiting hs ?_ ?_
  · rintro ⟨-, hq, hc⟩
    simp [h hq] at hc
  · simp [outputValue_eq_none_of_inputTarget hin]

/-- A machine at an `output` whose operand resolves runs once there is room. -/
theorem condition_eq_run_of_outputValue {s : State} (hs : s.status = .running)
    (hout : (outputValue s).isSome = true) (h : outCanPush s = true) : condition s = .run := by
  refine condition_eq_run_of_not_waiting hs ?_ (by simp [h])
  rintro ⟨hin, -⟩
  simp [outputValue_eq_none_of_inputTarget hin] at hout

end Sys2Proof.Machine

/-! SUPPORT. What the host's moves do to a waiting machine (spec/42_io.md rules R114, R117, R119). -/

namespace Sys2Proof.Machine

/-- A Running machine executes what it fetched. -/
theorem step_of_fetch {s : State} {i : Instr} (hs : s.status = .running) (hf : fetch s = .ok i) :
    step s = exec i s := by
  simp only [step, hs, hf, resolve_ok]

/-- A channel whose capacity is not 0 has room while it is empty. -/
theorem hasRoom_zero {c : Capacity} (h : c ≠ .bounded 0) : hasRoom c 0 = true := by
  cases c with
  | unbounded => rfl
  | bounded n =>
    have hn : n ≠ 0 := by simpa using h
    simpa [hasRoom] using Nat.pos_of_ne_zero hn

/-- There is room for one more value exactly where one more value fits. -/
theorem hasRoom_eq_fitsCapacity_succ (c : Capacity) (len : Nat) : hasRoom c len = fitsCapacity c (len + 1) := by
  cases c with
  | unbounded => rfl
  | bounded n => simp only [hasRoom, fitsCapacity, Nat.succ_le_iff]

/-- A full outbound channel of a capacity that is not 0 holds a value. -/
theorem outq_ne_nil_of_full {s : State} (hcap : s.outCapacity ≠ .bounded 0) (h : outCanPush s = false) :
    s.outq ≠ [] := by
  intro hq
  simp [outCanPush, hq, hasRoom_zero hcap] at h

@[simp] theorem hostCloseIn_status (s : State) : (hostCloseIn s).status = s.status := rfl
@[simp] theorem hostCloseIn_inq (s : State) : (hostCloseIn s).inq = s.inq := rfl
@[simp] theorem hostCloseIn_inClosed (s : State) : (hostCloseIn s).inClosed = true := rfl

/-- H-close-in leaves the `input` at `pc` and its target as they were. -/
@[simp] theorem inputTarget_hostCloseIn (s : State) : inputTarget (hostCloseIn s) = inputTarget s :=
  inputTarget_congr rfl rfl rfl

/-- H-send ends WAIT_IN. -/
theorem hostSend_lifts_waitIn {s : State} (h : condition s = .waitIn) (hcap : s.inCapacity ≠ .bounded 0) (v : Word) :
    ∃ t, hostSend v s = some t ∧ condition t = .run := by
  obtain ⟨hs, hin, hq, hc⟩ := condition_eq_waitIn_iff.mp h
  have hsame : inputTarget { s with inq := s.inq ++ [v] } = inputTarget s := inputTarget_congr rfl rfl rfl
  exact ⟨{ s with inq := s.inq ++ [v] }, by simp [hostSend, hc, hq, hasRoom_zero hcap],
    condition_eq_run_of_inputTarget hs (hsame ▸ hin) (by simp)⟩

/-- H-close-in ends WAIT_IN. -/
theorem hostCloseIn_lifts_waitIn {s : State} (h : condition s = .waitIn) : condition (hostCloseIn s) = .run := by
  obtain ⟨hs, hin, -, -⟩ := condition_eq_waitIn_iff.mp h
  exact condition_eq_run_of_inputTarget (by simpa using hs) (by simpa using hin) fun _ => hostCloseIn_inClosed s

/-- After H-close-in the waiting `input` raises InputClosed(0) (spec/42_io.md rule R117). -/
theorem step_hostCloseIn_of_waitIn {s : State} (h : condition s = .waitIn) :
    step (hostCloseIn s) = .next (takeFault ⟨.inputClosed, 0⟩ (hostCloseIn s)) := by
  obtain ⟨hs, hin, hq, -⟩ := condition_eq_waitIn_iff.mp h
  obtain ⟨n, hn⟩ := Option.isSome_iff_exists.mp hin
  rw [← inputTarget_hostCloseIn] at hn
  obtain ⟨a, hf, hw⟩ := inputTarget_eq_some_iff.mp hn
  calc step (hostCloseIn s) = execInput a (hostCloseIn s) := step_of_fetch (by simpa using hs) hf
    _ = .next (takeFault ⟨.inputClosed, 0⟩ (hostCloseIn s)) := by simp [execInput, hw, inHead, hq]

/-- H-recv ends WAIT_OUT of a buffered channel: a queue that fits the capacity has room once its head is taken. -/
theorem hostRecv_lifts_waitOut {s : State} (h : condition s = .waitOut) (hcap : s.outCapacity ≠ .bounded 0)
    (hfit : fitsCapacity s.outCapacity s.outq.length = true) :
    ∃ v t, hostRecv s = some (v, t) ∧ condition t = .run := by
  obtain ⟨hs, hout, hfull⟩ := condition_eq_waitOut_iff.mp h
  obtain ⟨v, rest, hq⟩ := List.exists_cons_of_ne_nil (outq_ne_nil_of_full hcap hfull)
  have hsame : outputValue { s with outq := rest } = outputValue s := outputValue_congr rfl rfl rfl
  have hroom : outCanPush { s with outq := rest } = true := by
    rw [hq, List.length_cons, ← hasRoom_eq_fitsCapacity_succ] at hfit
    exact hfit
  exact ⟨v, { s with outq := rest }, by simp [hostRecv, hq],
    condition_eq_run_of_outputValue hs (hsame ▸ hout) hroom⟩

/-- H-recv-direct is enabled in WAIT_OUT of an unbuffered channel. -/
theorem hostRecvDirect_enabled_of_waitOut {s : State} (h : condition s = .waitOut)
    (hcap : s.outCapacity = .bounded 0) : ∃ v t, hostRecvDirect s = some (v, t) := by
  obtain ⟨hs, hout, -⟩ := condition_eq_waitOut_iff.mp h
  obtain ⟨v, hv⟩ := Option.isSome_iff_exists.mp hout
  exact ⟨v, advance 1 { s with outLog := s.outLog ++ [v] }, by simp [hostRecvDirect, hcap, hs, hv]⟩

/-- Settles O42: each wait is lifted by a move of the channel's other end, which changes no field that the fetch and the
operand of the waiting instruction look at. -/
theorem theHostCanLiftEveryWait : Obligations.TheHostCanLiftEveryWait := by
  intro s
  exact ⟨hostSend_lifts_waitIn, fun h => ⟨hostCloseIn_lifts_waitIn h, step_hostCloseIn_of_waitIn h⟩,
    hostRecv_lifts_waitOut, hostRecvDirect_enabled_of_waitOut⟩

end Sys2Proof.Machine

/-! SUPPORT. Everything that executing an instruction, and a step, can do, said once; every frame and the invariant are
read off it. -/

namespace Sys2Proof.Machine

/-! ### Operands that resolved -/

theorem memRead_ok {s : State} {x v : Word} (h : memRead s x = .ok v) : 0 ≤ x.toInt ∧ v = s.mem.read x.toNat := by
  rcases memRead_cases s x with ⟨-, h'⟩ | ⟨hx, h'⟩
  · rw [h'] at h
    cases h
  · rw [h'] at h
    cases h
    exact ⟨hx, rfl⟩

/-- A read operand that resolved is readable and gives its value. -/
theorem readOp_ok {s : State} {a : ReadOperand} {v : Word} (h : readOp s a = .ok v) :
    readable s a = true ∧ v = readValue s a := by
  cases a with
  | positional raw =>
    obtain ⟨hx, hv⟩ := memRead_ok h
    exact ⟨decide_eq_true hx, hv⟩
  | immediate raw =>
    cases h
    exact ⟨rfl, rfl⟩
  | relative raw =>
    obtain ⟨hx, hv⟩ := memRead_ok h
    exact ⟨decide_eq_true hx, hv⟩

/-- A write operand that resolved gives its address. -/
theorem writeAddr_ok_eq {s : State} {c : WriteOperand} {n : Nat} (h : writeAddr s c = .ok n) :
    n = (writeAddress s c).toNat := by
  cases c with
  | positional raw => exact (checkAddr_ok h).2.1
  | relative raw => exact (checkAddr_ok h).2.1

/-! ### The instructions that share a rule -/

/-- The instructions of format F3, `add`, `mul`, `less-than` and `equals`, with their operands. -/
def IsBinary (i : Instr) (a b : ReadOperand) (c : WriteOperand) : Prop :=
  i = .add a b c ∨ i = .mul a b c ∨ i = .lessThan a b c ∨ i = .equals a b c

/-- The two conditional jumps, with their operands. -/
def IsJump (i : Instr) (a b : ReadOperand) : Prop := i = .jumpIfTrue a b ∨ i = .jumpIfFalse a b

theorem exec_of_isBinary {i : Instr} {a b : ReadOperand} {c : WriteOperand} (h : IsBinary i a b c) (s : State) :
    ∃ f, exec i s = storeBinary f a b c s := by
  rcases h with rfl | rfl | rfl | rfl
  · exact ⟨wrapAdd, rfl⟩
  · exact ⟨wrapMul, rfl⟩
  · exact ⟨lessThanWord, rfl⟩
  · exact ⟨equalsWord, rfl⟩

theorem exec_of_isJump {i : Instr} {a b : ReadOperand} (h : IsJump i a b) (s : State) :
    ∃ taken, exec i s = jumpWhen taken a b s := by
  rcases h with rfl | rfl
  · exact ⟨isNonZero, rfl⟩
  · exact ⟨fun v => !isNonZero v, rfl⟩

theorem IsBinary.arity {i : Instr} {a b : ReadOperand} {c : WriteOperand} (h : IsBinary i a b c) :
    i.header.arity = 3 := by
  rcases h with rfl | rfl | rfl | rfl <;> rfl

theorem IsBinary.stores {i : Instr} {a b : ReadOperand} {c : WriteOperand} (h : IsBinary i a b c) :
    stores i = true := by
  rcases h with rfl | rfl | rfl | rfl <;> rfl

theorem IsJump.arity {i : Instr} {a b : ReadOperand} (h : IsJump i a b) : i.header.arity = 2 := by
  rcases h with rfl | rfl <;> rfl

/-! ### What executing an instruction can do -/

/-- The faults that executing `i` in `s` can raise. -/
inductive ExecRaises (i : Instr) (s : State) : Raise → Prop where
  /-- An operand names a negative address. -/
  | address {x : Word} (hx : x.toInt < 0) : ExecRaises i s ⟨.invalidAddress, x⟩
  /-- `input` finds its channel empty and closed. -/
  | inputClosed {a : WriteOperand} (hi : i = .input a) (hq : s.inq = []) (hc : s.inClosed = true) :
      ExecRaises i s ⟨.inputClosed, 0⟩

/-- What executing `i` in `s` can lead to where it raises no fault. -/
inductive Effect (i : Instr) (s : State) : State → Prop where
  /-- A format F3 instruction stores its result. -/
  | store {a b : ReadOperand} {c : WriteOperand} {n : Nat} (v : Word) (hi : IsBinary i a b c)
      (hn : writeAddr s c = .ok n) : Effect i s (advance 3 (storeWord n v s))
  /-- `input` stores the head of its queue. -/
  | take {a : WriteOperand} {n : Nat} (v : Word) (hi : i = .input a) (hn : writeAddr s a = .ok n) :
      Effect i s (advance 1 (storeWord n v (inPop s)))
  /-- `input` waits for a value. -/
  | waitIn {a : WriteOperand} (hi : i = .input a) (hq : s.inq = []) : Effect i s s
  /-- `output` waits for room. -/
  | waitOut {a : ReadOperand} (hi : i = .output a) : Effect i s s
  /-- `output` emits its operand. -/
  | emit {a : ReadOperand} (hi : i = .output a) (hroom : outCanPush s = true) :
      Effect i s (advance 1 (outPush (readValue s a) s))
  /-- A jump is taken. -/
  | jump {a b : ReadOperand} (hi : IsJump i a b) (hb : readable s b = true) : Effect i s (jumpTo (readValue s b) s)
  /-- A jump is not taken. -/
  | fallThrough {a b : ReadOperand} (hi : IsJump i a b) : Effect i s (advance 2 s)
  /-- `adjust-relative-base` adds its operand. -/
  | adjust {a : ReadOperand} (v : Word) (hi : i = .adjustRelativeBase a) : Effect i s (advance 1 (adjustRb v s))
  /-- `halt` ends the run. -/
  | halt (hi : i = .halt) : Effect i s (enterHalted s)

/-- `t` is `s` after a fault that executing `i` raised, or after the effect of `i`. -/
def ExecAnswer (i : Instr) (s t : State) : Prop := (∃ r, ExecRaises i s r ∧ t = takeFault r s) ∨ Effect i s t

theorem ExecRaises.of_addressFault {i : Instr} {s : State} {r : Raise}
    (h : r.cause = .invalidAddress ∧ r.info.toInt < 0) : ExecRaises i s r := by
  obtain ⟨cause, info⟩ := r
  obtain ⟨rfl, hx⟩ := h
  exact .address hx

/-- A format F3 instruction enters a fault, or stores at the address of its operand c and advances. -/
theorem exec_isBinary_cases {i : Instr} {a b : ReadOperand} {c : WriteOperand} (hi : IsBinary i a b c) (s : State) :
    (∃ r, ExecRaises i s r ∧ exec i s = .next (takeFault r s)) ∨
      ∃ n v, writeAddr s c = .ok n ∧ exec i s = .next (advance 3 (storeWord n v s)) := by
  obtain ⟨f, hf⟩ := exec_of_isBinary hi s
  rcases storeBinary_cases f a b c s with ⟨r, hr, he⟩ | ⟨va, vb, n, -, -, hn, he⟩
  · have haddr : r.cause = .invalidAddress ∧ r.info.toInt < 0 := by
      rcases hr with ha | ⟨-, -, hb⟩ | ⟨-, -, -, -, hc⟩
      · exact readOp_error ha
      · exact readOp_error hb
      · exact writeAddr_error hc
    exact .inl ⟨r, .of_addressFault haddr, hf.trans he⟩
  · exact .inr ⟨n, f va vb, hn, hf.trans he⟩

theorem exec_answer_of_isBinary {i : Instr} {a b : ReadOperand} {c : WriteOperand} (hi : IsBinary i a b c) (s : State) :
    ∃ t, exec i s = .next t ∧ ExecAnswer i s t := by
  rcases exec_isBinary_cases hi s with ⟨r, hr, he⟩ | ⟨n, v, hn, he⟩
  · exact ⟨_, he, .inl ⟨r, hr, rfl⟩⟩
  · exact ⟨_, he, .inr (.store v hi hn)⟩

theorem exec_answer_of_isJump {i : Instr} {a b : ReadOperand} (hi : IsJump i a b) (s : State) :
    ∃ t, exec i s = .next t ∧ ExecAnswer i s t := by
  obtain ⟨taken, hf⟩ := exec_of_isJump hi s
  rcases jumpWhen_cases taken a b s with ⟨r, hr, he⟩ | ⟨va, target, -, -, hb, he⟩ | ⟨va, -, -, he⟩
  · have haddr : r.cause = .invalidAddress ∧ r.info.toInt < 0 := by
      rcases hr with ha | ⟨-, -, -, hb⟩
      · exact readOp_error ha
      · exact readOp_error hb
    exact ⟨_, hf.trans he, .inl ⟨r, .of_addressFault haddr, rfl⟩⟩
  · obtain ⟨hread, rfl⟩ := readOp_ok hb
    exact ⟨_, hf.trans he, .inr (.jump hi hread)⟩
  · exact ⟨_, hf.trans he, .inr (.fallThrough hi)⟩

theorem exec_answer_input (a : WriteOperand) (s : State) :
    ∃ t, exec (.input a) s = .next t ∧ ExecAnswer (.input a) s t := by
  rcases execInput_cases a s with ⟨r, hr, he⟩ | ⟨n, -, hq, hc, he⟩ | ⟨n, -, hq, -, he⟩ | ⟨n, v, rest, hn, -, he⟩
  · exact ⟨_, he, .inl ⟨r, .of_addressFault (writeAddr_error hr), rfl⟩⟩
  · exact ⟨_, he, .inl ⟨_, .inputClosed rfl hq hc, rfl⟩⟩
  · exact ⟨_, he, .inr (.waitIn rfl hq)⟩
  · exact ⟨_, he, .inr (.take v rfl hn)⟩

theorem exec_answer_output (a : ReadOperand) (s : State) :
    ∃ t, exec (.output a) s = .next t ∧ ExecAnswer (.output a) s t := by
  rcases execOutput_cases a s with ⟨r, hr, he⟩ | ⟨v, -, -, he⟩ | ⟨v, hv, hroom, he⟩
  · exact ⟨_, he, .inl ⟨r, .of_addressFault (readOp_error hr), rfl⟩⟩
  · exact ⟨_, he, .inr (.waitOut rfl)⟩
  · obtain ⟨-, rfl⟩ := readOp_ok hv
    exact ⟨_, he, .inr (.emit rfl hroom)⟩

theorem exec_answer_adjustRelativeBase (a : ReadOperand) (s : State) :
    ∃ t, exec (.adjustRelativeBase a) s = .next t ∧ ExecAnswer (.adjustRelativeBase a) s t := by
  rcases execAdjustRelativeBase_cases a s with ⟨r, hr, he⟩ | ⟨v, -, he⟩
  · exact ⟨_, he, .inl ⟨r, .of_addressFault (readOp_error hr), rfl⟩⟩
  · exact ⟨_, he, .inr (.adjust v rfl)⟩

/-- Every instruction answers a next state, and what that state can be. -/
theorem exec_answer (i : Instr) (s : State) : ∃ t, exec i s = .next t ∧ ExecAnswer i s t := by
  cases i with
  | add a b c => exact exec_answer_of_isBinary (.inl rfl) s
  | mul a b c => exact exec_answer_of_isBinary (.inr (.inl rfl)) s
  | input a => exact exec_answer_input a s
  | output a => exact exec_answer_output a s
  | jumpIfTrue a b => exact exec_answer_of_isJump (.inl rfl) s
  | jumpIfFalse a b => exact exec_answer_of_isJump (.inr rfl) s
  | lessThan a b c => exact exec_answer_of_isBinary (.inr (.inr (.inl rfl))) s
  | equals a b c => exact exec_answer_of_isBinary (.inr (.inr (.inr rfl))) s
  | adjustRelativeBase a => exact exec_answer_adjustRelativeBase a s
  | halt => exact ⟨_, rfl, .inr (.halt rfl)⟩

theorem exec_cases {i : Instr} {s t : State} (h : exec i s = .next t) : ExecAnswer i s t := by
  obtain ⟨t', he, ha⟩ := exec_answer i s
  cases h.symm.trans he
  exact ha

/-! ### What a step can do -/

/-- The faults that a step in `s` can raise, in its fetch or in the instruction fetched. -/
inductive StepRaises (s : State) : Raise → Prop where
  /-- A negative address is named by `pc`, by the operand fetch or by an operand. -/
  | address {x : Word} (hx : x.toInt < 0) : StepRaises s ⟨.invalidAddress, x⟩
  /-- The word at `pc` is no instruction word. -/
  | word {e : WordError} (hpc : 0 ≤ s.pc.toInt) (hd : decodeWord (s.mem.read s.pc.toNat) = .error e) :
      StepRaises s (decodeRaise (s.mem.read s.pc.toNat) e)
  /-- The `input` at `pc` finds its channel empty and closed. -/
  | inputClosed {a : WriteOperand} (hf : fetch s = .ok (.input a)) (hq : s.inq = []) (hc : s.inClosed = true) :
      StepRaises s ⟨.inputClosed, 0⟩

theorem StepRaises.of_addressFault {s : State} {r : Raise} (h : r.cause = .invalidAddress ∧ r.info.toInt < 0) :
    StepRaises s r := by
  obtain ⟨cause, info⟩ := r
  obtain ⟨rfl, hx⟩ := h
  exact .address hx

theorem ExecRaises.stepRaises {i : Instr} {s : State} {r : Raise} (h : ExecRaises i s r) (hf : fetch s = .ok i) :
    StepRaises s r := by
  cases h with
  | address hx => exact .address hx
  | inputClosed hi hq hc => exact .inputClosed (hi ▸ hf) hq hc

theorem stepRaises_of_fetch_error {s : State} {r : Raise} (h : fetch s = .error r) : StepRaises s r := by
  rcases fetch_cases s with ⟨hpc, hf⟩ | ⟨hpc, e, hd, hf⟩ | ⟨-, hd, r', -, hraws, hf⟩ | ⟨-, hd, raws, -, -, hf⟩
  · cases h.symm.trans hf
    exact .address hpc
  · cases h.symm.trans hf
    exact .word hpc hd
  · cases h.symm.trans hf
    exact .of_addressFault (fetchRaws_error hraws)
  · cases h.symm.trans hf

/-- A step starts from a Running machine, and enters a fault or leaves the effect of the instruction it fetched. -/
theorem step_raises_or_effect {s t : State} (h : step s = .next t) :
    s.status = .running ∧
      ((∃ r, StepRaises s r ∧ t = takeFault r s) ∨ ∃ i, fetch s = .ok i ∧ Effect i s t) := by
  obtain ⟨hs, ⟨r, hr, rfl⟩ | ⟨i, hf, he⟩⟩ := step_cases h
  · exact ⟨hs, .inl ⟨r, stepRaises_of_fetch_error hr, rfl⟩⟩
  · refine ⟨hs, ?_⟩
    rcases exec_cases he with ⟨r, hr, rfl⟩ | heff
    · exact .inl ⟨r, hr.stepRaises hf, rfl⟩
    · exact .inr ⟨i, hf, heff⟩

/-- Settles O18: fetching answers an instruction or a fault, and every instruction answers a next state. -/
theorem stepAnswersExactlyWhileRunning : Obligations.StepAnswersExactlyWhileRunning := by
  intro s
  refine ⟨fun hs => ?_, fun hs => by rw [step, hs], fun hs => by rw [step, hs]⟩
  cases hf : fetch s with
  | error r => exact ⟨takeFault r s, by rw [step, hs, hf, resolve_error]⟩
  | ok i =>
    obtain ⟨t, he, -⟩ := exec_answer i s
    exact ⟨t, (step_of_fetch hs hf).trans he⟩

end Sys2Proof.Machine

/-! SUPPORT. The machine invariant: it holds at reset, and steps and moves keep it (spec/10_state.md rules R26 to R34). -/

namespace Sys2Proof.Machine

/-! ### The invariant of a Running machine, and of one that has just ended -/

theorem MachineInv.of_running {s : State} (hs : s.status = .running) (hmem : s.mem.wf) (hopen : s.outClosed = false)
    (hcause : s.cause = .none) (hinfo : s.faultInfo = 0) (hfit : fitsCapacity s.outCapacity s.outq.length = true)
    (htail : s.outq <:+ s.outLog) (hcap : s.inCapacity ≠ .bounded 0) : MachineInv s where
  memWf := hmem
  closedIffEnded := by simp [hopen, hs]
  causeIffFaulted := by simp [hcause, hs]
  detail := by rwa [DetailFits, hcause]
  outFits := hfit
  outqIsTail := htail
  inCapacityLegal := hcap

section Preservation

variable {s t : State} (h : MachineInv s)
include h

theorem MachineInv.outClosed_eq_false (hs : s.status = .running) : s.outClosed = false := by
  simpa [hs] using h.closedIffEnded

theorem MachineInv.cause_eq_none (hs : s.status ≠ .faulted) : s.cause = .none := by
  simpa [hs] using h.causeIffFaulted

theorem MachineInv.faultInfo_eq_zero (hs : s.status ≠ .faulted) : s.faultInfo = 0 := by
  have hd := h.detail
  rwa [DetailFits, h.cause_eq_none hs] at hd

/-- A Running machine whose control registers stay keeps the invariant where memory and the outbound channel do. -/
theorem MachineInv.of_sameControl (hs : s.status = .running) (hc : SameControl s t) (hmem : t.mem.wf)
    (hfit : fitsCapacity t.outCapacity t.outq.length = true) (htail : t.outq <:+ t.outLog)
    (hcap : t.inCapacity = s.inCapacity) : MachineInv t := by
  obtain ⟨hstatus, hcause, hinfo, hclosed⟩ := hc
  have hne : s.status ≠ .faulted := by simp [hs]
  exact .of_running (hstatus.trans hs) hmem (hclosed.trans (h.outClosed_eq_false hs))
    (hcause.trans (h.cause_eq_none hne)) (hinfo.trans (h.faultInfo_eq_zero hne)) hfit htail (hcap ▸ h.inCapacityLegal)

/-- A fault entry keeps the invariant where the fault has a cause and its detail fits. -/
theorem MachineInv.takeFault {r : Raise} (hr : r.cause ≠ .none) (hd : DetailFits (takeFault r s)) :
    MachineInv (takeFault r s) where
  memWf := h.memWf
  closedIffEnded := by simp
  causeIffFaulted := by simpa using hr
  detail := hd
  outFits := h.outFits
  outqIsTail := h.outqIsTail
  inCapacityLegal := h.inCapacityLegal

theorem MachineInv.enterHalted (hs : s.status = .running) : MachineInv (enterHalted s) where
  memWf := h.memWf
  closedIffEnded := by simp
  causeIffFaulted := by simp [h.cause_eq_none (by simp [hs])]
  detail := h.detail
  outFits := h.outFits
  outqIsTail := h.outqIsTail
  inCapacityLegal := h.inCapacityLegal

theorem MachineInv.of_stepRaises {r : Raise} (hr : StepRaises s r) : MachineInv (Machine.takeFault r s) := by
  cases hr with
  | address hx => exact h.takeFault (by simp) hx
  | @word e hpc hd =>
    cases e with
    | illegalOpcode => exact h.takeFault (by simp [decodeRaise]) ⟨hpc, rfl⟩
    | illegalMode => exact h.takeFault (by simp [decodeRaise]) ⟨hpc, rfl⟩
  | inputClosed hf hq hc => exact h.takeFault (by simp) ⟨rfl, hq, hc⟩

theorem MachineInv.of_effect {i : Instr} (hs : s.status = .running) (he : Effect i s t) : MachineInv t := by
  have hsame : SameControl s s := ⟨rfl, rfl, rfl, rfl⟩
  cases he with
  | store v hi hn =>
    exact h.of_sameControl hs hsame (Memory.wf_write h.memWf (writeAddr_ok_lt hn) v) h.outFits h.outqIsTail rfl
  | take v hi hn =>
    exact h.of_sameControl hs hsame (Memory.wf_write h.memWf (writeAddr_ok_lt hn) v) h.outFits h.outqIsTail rfl
  | waitIn hi hq => exact h
  | waitOut hi => exact h
  | @emit a hi hroom =>
    have hfit : fitsCapacity s.outCapacity (s.outq ++ [readValue s a]).length = true := by
      rwa [List.length_append, List.length_singleton, ← hasRoom_eq_fitsCapacity_succ]
    exact h.of_sameControl hs hsame h.memWf hfit (List.suffix_append_self_iff.2 h.outqIsTail) rfl
  | jump hi hb => exact h.of_sameControl hs hsame h.memWf h.outFits h.outqIsTail rfl
  | fallThrough hi => exact h.of_sameControl hs hsame h.memWf h.outFits h.outqIsTail rfl
  | adjust v hi => exact h.of_sameControl hs hsame h.memWf h.outFits h.outqIsTail rfl
  | halt hi => exact h.enterHalted hs

end Preservation

/-- Settles O12: a fault of the step has a cause whose detail fits, and no effect but that of `halt` touches the control
registers. -/
theorem everyStepKeepsTheInvariant : Obligations.EveryStepKeepsTheInvariant := by
  intro s t h hstep
  obtain ⟨hs, ⟨r, hr, rfl⟩ | ⟨i, -, he⟩⟩ := step_raises_or_effect hstep
  · exact h.of_stepRaises hr
  · exact h.of_effect hs he

end Sys2Proof.Machine

/-! SUPPORT. Reset, and the moves of the host. -/

namespace Sys2Proof.Machine

/-! ### Reset -/

theorem State.reset_eq_new : State.reset = State.new [] ⟨[], false, Config.resetInCapacity, Config.resetOutCapacity⟩ :=
  rfl

theorem machineInv_new {p : List Word} {ch : Channels} (hp : p.length ≤ addressLimit)
    (hcap : ch.inCapacity ≠ .bounded 0) : MachineInv (State.new p ch) := by
  have hmem : (Memory.image 0 p).wf := Memory.wf_image p 0 (by simpa using hp)
  have hfit : fitsCapacity ch.outCapacity 0 = true := by cases ch.outCapacity <;> simp [fitsCapacity]
  exact .of_running rfl hmem rfl rfl rfl hfit List.nil_suffix hcap

/-- Settles O11: a fresh machine is Running, its memory is the image of its program and its queue of output is empty. -/
theorem resetMeetsTheInvariant : Obligations.ResetMeetsTheInvariant := by
  refine ⟨fun p ch => machineInv_new, ?_⟩
  rw [State.reset_eq_new]
  exact machineInv_new (by simp) (by decide)

/-- Settles O10: every register is a field of the construction, and memory is the image of the program at 0. -/
theorem resetIsAFreshConstruction : Obligations.ResetIsAFreshConstruction := by
  intro p ch
  have hread : ∀ a, (State.new p ch).mem.read a = p.getD a 0 := fun a =>
    (Memory.read_image p 0 a).trans (if_pos (Nat.zero_le a))
  exact ⟨rfl, rfl, fun a _ => hread a, fun a ha => (hread a).trans (List.getD_eq_default p 0 ha), rfl, rfl, rfl, rfl, rfl,
    rfl, rfl, rfl⟩

/-! ### What the moves can do -/

theorem hostSend_eq_some {v : Word} {s t : State} (h : hostSend v s = some t) :
    s.inClosed = false ∧ t = { s with inq := s.inq ++ [v] } := by
  unfold hostSend at h
  split at h
  next hen =>
    simp only [Bool.and_eq_true, Bool.not_eq_true'] at hen
    exact ⟨hen.1, (Option.some.inj h).symm⟩
  next => cases h

theorem hostRecv_eq_some {v : Word} {s t : State} (h : hostRecv s = some (v, t)) :
    ∃ rest, s.outq = v :: rest ∧ t = { s with outq := rest } := by
  unfold hostRecv at h
  split at h
  next => cases h
  next w rest hq =>
    cases h
    exact ⟨rest, hq, rfl⟩

theorem hostRecvDirect_eq_some {v : Word} {s t : State} (h : hostRecvDirect s = some (v, t)) :
    s.outCapacity = .bounded 0 ∧ s.status = .running ∧ t = advance 1 { s with outLog := s.outLog ++ [v] } := by
  unfold hostRecvDirect at h
  split at h
  next hen =>
    split at h
    next => cases h
    next w _ =>
      cases h
      exact ⟨hen.1, hen.2, rfl⟩
  next => cases h

/-- What a transition of machine and host can be. -/
theorem fire_cases {m : Move} {s t : State} {x : Traffic} (h : fire m s = some (t, x)) :
    (m = .step ∧ step s = .next t) ∨ (∃ v, m = .send v ∧ hostSend v s = some t) ∨
      (m = .closeIn ∧ t = hostCloseIn s) ∨ (∃ v, m = .recv ∧ hostRecv s = some (v, t)) ∨
      (∃ v, m = .recvDirect ∧ hostRecvDirect s = some (v, t)) := by
  cases m with
  | step =>
    simp only [fire] at h
    split at h
    next =>
      split at h
      next hstep =>
        cases h
        exact .inl ⟨rfl, hstep⟩
      next => cases h
      next => cases h
    next => cases h
  | send v =>
    obtain ⟨t', ht, he⟩ := Option.map_eq_some_iff.1 h
    cases he
    exact .inr (.inl ⟨v, rfl, ht⟩)
  | closeIn =>
    cases h
    exact .inr (.inr (.inl ⟨rfl, rfl⟩))
  | recv =>
    obtain ⟨⟨v, t'⟩, ht, he⟩ := Option.map_eq_some_iff.1 h
    cases he
    exact .inr (.inr (.inr (.inl ⟨v, rfl, ht⟩)))
  | recvDirect =>
    obtain ⟨⟨v, t'⟩, ht, he⟩ := Option.map_eq_some_iff.1 h
    cases he
    exact .inr (.inr (.inr (.inr ⟨v, rfl, ht⟩)))

/-- Settles O43: a step and H-recv-direct need a Running machine, and the other moves write the channels only. -/
theorem anEndedRunStaysEnded : Obligations.AnEndedRunStaysEnded := by
  intro m s t x hs hfire
  rcases fire_cases hfire with ⟨-, hstep⟩ | ⟨v, -, hsend⟩ | ⟨-, rfl⟩ | ⟨v, -, hrecv⟩ | ⟨v, -, hdirect⟩
  · exact absurd (step_cases hstep).1 hs
  · obtain ⟨-, rfl⟩ := hostSend_eq_some hsend
    rfl
  · rfl
  · obtain ⟨rest, -, rfl⟩ := hostRecv_eq_some hrecv
    rfl
  · exact absurd (hostRecvDirect_eq_some hdirect).2.1 hs

/-! ### The invariant under the moves -/

theorem fitsCapacity_of_succ {c : Capacity} {len : Nat} (h : fitsCapacity c (len + 1) = true) :
    fitsCapacity c len = true := by
  cases c with
  | unbounded => rfl
  | bounded n =>
    have hle : len + 1 ≤ n := of_decide_eq_true h
    exact decide_eq_true (Nat.le_of_succ_le hle)

/-- The invariant asks of the inbound channel only that one that raised InputClosed is empty and closed. -/
theorem MachineInv.of_inbound {s : State} (h : MachineInv s) (q : List Word) (closed : Bool)
    (hkeep : s.cause = .inputClosed → q = s.inq ∧ closed = s.inClosed) :
    MachineInv { s with inq := q, inClosed := closed } where
  memWf := h.memWf
  closedIffEnded := h.closedIffEnded
  causeIffFaulted := h.causeIffFaulted
  detail := by
    cases hc : s.cause with
    | inputClosed =>
      obtain ⟨rfl, rfl⟩ := hkeep hc
      simpa [DetailFits, hc] using h.detail
    | _ => simpa [DetailFits, hc] using h.detail
  outFits := h.outFits
  outqIsTail := h.outqIsTail
  inCapacityLegal := h.inCapacityLegal

/-- The channel of a machine that raised InputClosed is closed. -/
theorem MachineInv.inClosed_of_inputClosed {s : State} (h : MachineInv s) (hc : s.cause = .inputClosed) :
    s.inClosed = true := by
  have hd := h.detail
  rw [DetailFits, hc] at hd
  exact hd.2.2

theorem MachineInv.of_hostRecv {s t : State} {v : Word} (h : MachineInv s) (hr : hostRecv s = some (v, t)) :
    MachineInv t := by
  obtain ⟨rest, hq, rfl⟩ := hostRecv_eq_some hr
  have hfit : fitsCapacity s.outCapacity (rest.length + 1) = true := by simpa [hq] using h.outFits
  have htail : v :: rest <:+ s.outLog := hq ▸ h.outqIsTail
  exact
    { memWf := h.memWf
      closedIffEnded := h.closedIffEnded
      causeIffFaulted := h.causeIffFaulted
      detail := h.detail
      outFits := fitsCapacity_of_succ hfit
      outqIsTail := (List.suffix_cons v rest).trans htail
      inCapacityLegal := h.inCapacityLegal }

/-- An unbuffered channel holds nothing. -/
theorem MachineInv.outq_eq_nil {s : State} (h : MachineInv s) (hcap : s.outCapacity = .bounded 0) : s.outq = [] := by
  simpa [hcap, fitsCapacity] using h.outFits

theorem MachineInv.of_hostRecvDirect {s t : State} {v : Word} (h : MachineInv s)
    (hr : hostRecvDirect s = some (v, t)) : MachineInv t := by
  obtain ⟨hcap, hs, rfl⟩ := hostRecvDirect_eq_some hr
  have htail : s.outq <:+ s.outLog ++ [v] := h.outq_eq_nil hcap ▸ List.nil_suffix
  exact h.of_sameControl hs ⟨rfl, rfl, rfl, rfl⟩ h.memWf h.outFits htail rfl

/-- Settles O13: the step is O12; H-send needs an open channel, so no fault InputClosed; H-recv-direct needs an
unbuffered one, whose queue is empty. -/
theorem everyMoveKeepsTheInvariant : Obligations.EveryMoveKeepsTheInvariant := by
  intro m s t x h hfire
  rcases fire_cases hfire with ⟨-, hstep⟩ | ⟨v, -, hsend⟩ | ⟨-, rfl⟩ | ⟨v, -, hrecv⟩ | ⟨v, -, hdirect⟩
  · exact everyStepKeepsTheInvariant s t h hstep
  · obtain ⟨hopen, rfl⟩ := hostSend_eq_some hsend
    exact h.of_inbound _ s.inClosed fun hc => by simp [h.inClosed_of_inputClosed hc] at hopen
  · exact h.of_inbound s.inq true fun hc => ⟨rfl, (h.inClosed_of_inputClosed hc).symm⟩
  · exact h.of_hostRecv hrecv
  · exact h.of_hostRecvDirect hdirect

end Sys2Proof.Machine

/-! SUPPORT. What an instruction leaves unchanged (spec/10_state.md rules R20 to R22, spec/40_fetch_dispatch.md rules R85
and R87), and the whole-machine rules that follow. -/

namespace Sys2Proof.Machine

/-! ### Frames -/

theorem sameControl_refl (s : State) : SameControl s s := ⟨rfl, rfl, rfl, rfl⟩

theorem sameChannels_refl (s : State) : SameChannels s s := ⟨rfl, rfl, rfl, rfl, rfl, rfl⟩

theorem ExecRaises.faultEntered {i : Instr} {s : State} {r : Raise} (h : ExecRaises i s r) :
    FaultEntered s (takeFault r s) := by
  cases h with
  | address hx => exact ⟨rfl, by simp⟩
  | inputClosed hi hq hc => exact ⟨rfl, by simp⟩

/-- A store at the address of a write operand leaves every other word. -/
theorem sameMemoryBut_of_write {s t : State} {c : WriteOperand} {n : Nat} {v : Word} (hn : writeAddr s c = .ok n)
    (ht : t.mem = s.mem.write n v) : SameMemoryBut (writeAddress s c).toNat s t := by
  intro x hx
  rw [← writeAddr_ok_eq hn] at hx
  rw [ht, Memory.read_write_other hx]

/-- Settles O33: a format F3 instruction enters a fault, or stores at the address of c and advances. -/
theorem storingInstructionsChangeOnlyTheTargetWord : Obligations.StoringInstructionsChangeOnlyTheTargetWord := by
  intro i a b c s t hi hexec
  rcases exec_isBinary_cases hi s with ⟨r, hr, he⟩ | ⟨n, v, hn, he⟩
  · cases hexec.symm.trans he
    exact ⟨rfl, sameChannels_refl s, .inr hr.faultEntered⟩
  · cases hexec.symm.trans he
    exact ⟨rfl, sameChannels_refl s, .inl ⟨sameControl_refl s, sameMemoryBut_of_write hn rfl⟩⟩

/-- Settles O34, by the four outcomes of `input`: a bad address, an empty channel that is closed or open, and a value. -/
theorem inputChangesOnlyTheTargetWordAndItsQueue : Obligations.InputChangesOnlyTheTargetWordAndItsQueue := by
  intro a s t hexec
  rcases execInput_cases a s with ⟨r, hr, he⟩ | ⟨n, -, hq, hc, he⟩ | ⟨n, -, hq, -, he⟩ | ⟨n, v, rest, hn, -, he⟩
  · cases hexec.symm.trans he
    have hraise : ExecRaises (.input a) s r := .of_addressFault (writeAddr_error hr)
    exact ⟨rfl, rfl, rfl, rfl, rfl, rfl, .inr hraise.faultEntered⟩
  · cases hexec.symm.trans he
    have hraise : ExecRaises (.input a) s ⟨.inputClosed, 0⟩ := .inputClosed rfl hq hc
    exact ⟨rfl, rfl, rfl, rfl, rfl, rfl, .inr hraise.faultEntered⟩
  · cases hexec.symm.trans he
    exact ⟨rfl, rfl, rfl, rfl, rfl, rfl, .inl ⟨sameControl_refl s, fun _ _ => rfl, by simp [hq]⟩⟩
  · cases hexec.symm.trans he
    exact ⟨rfl, rfl, rfl, rfl, rfl, rfl, .inl ⟨sameControl_refl s, sameMemoryBut_of_write hn rfl, rfl⟩⟩

/-- Settles O35, by what an instruction that stores nothing can do: raise a fault, wait, emit, jump or not, adjust `rb`
or halt. -/
theorem nonStoringInstructionsKeepMemory : Obligations.NonStoringInstructionsKeepMemory := by
  intro i s t hstores hexec
  have hcontrol := sameControl_refl s
  rcases exec_cases hexec with ⟨r, hr, rfl⟩ | he
  · exact ⟨fun _ => rfl, rfl, rfl, rfl, rfl, .inr rfl, .inr ⟨rfl, rfl⟩, .inr (.inl hr.faultEntered)⟩
  cases he with
  | store v hi hn => simp [hi.stores] at hstores
  | take v hi hn => simp [hi, stores] at hstores
  | waitIn hi hq => simp [hi, stores] at hstores
  | waitOut hi => exact ⟨fun _ => rfl, rfl, rfl, rfl, rfl, .inr rfl, .inr ⟨rfl, rfl⟩, .inl hcontrol⟩
  | @emit a hi hroom => exact ⟨fun _ => rfl, rfl, rfl, rfl, rfl, .inr rfl, .inl ⟨a, hi, rfl, rfl⟩, .inl hcontrol⟩
  | jump hi hb => exact ⟨fun _ => rfl, rfl, rfl, rfl, rfl, .inr rfl, .inr ⟨rfl, rfl⟩, .inl hcontrol⟩
  | fallThrough hi => exact ⟨fun _ => rfl, rfl, rfl, rfl, rfl, .inr rfl, .inr ⟨rfl, rfl⟩, .inl hcontrol⟩
  | @adjust a v hi => exact ⟨fun _ => rfl, rfl, rfl, rfl, rfl, .inl ⟨a, hi⟩, .inr ⟨rfl, rfl⟩, .inl hcontrol⟩
  | halt hi =>
    exact ⟨fun _ => rfl, rfl, rfl, rfl, rfl, .inr rfl, .inr ⟨rfl, rfl⟩, .inr (.inr ⟨hi, rfl, rfl, rfl⟩)⟩

/-- Settles O36: an effect that neither jumps, halts nor waits advances by the instruction's own arity. -/
theorem programCounterMovesOnlyAsTheRulesSay : Obligations.ProgramCounterMovesOnlyAsTheRulesSay := by
  intro i s t hexec
  rcases exec_cases hexec with ⟨r, hr, rfl⟩ | he
  · exact .inr (.inr ⟨rfl, .inr (.inl rfl)⟩)
  cases he with
  | store v hi hn => exact .inl (by rw [hi.arity]; rfl)
  | take v hi hn => exact .inl (by rw [hi]; rfl)
  | waitIn hi hq => exact .inr (.inr ⟨rfl, .inr (.inr rfl)⟩)
  | waitOut hi => exact .inr (.inr ⟨rfl, .inr (.inr rfl)⟩)
  | emit hi hroom => exact .inl (by rw [hi]; rfl)
  | jump hi hb => exact .inr (.inl ⟨_, _, hi, hb, rfl⟩)
  | fallThrough hi => exact .inl (by rw [hi.arity]; rfl)
  | adjust v hi => exact .inl (by rw [hi]; rfl)
  | halt hi => exact .inr (.inr ⟨rfl, .inl rfl⟩)

/-! ### Whole-machine rules -/

/-- Settles O37: neither a fault nor an effect other than `adjust-relative-base` writes `rb`. -/
theorem onlyAdjustRelativeBaseWritesRb : Obligations.OnlyAdjustRelativeBaseWritesRb := by
  intro s t hstep hrb
  obtain ⟨-, ⟨r, -, rfl⟩ | ⟨i, hf, he⟩⟩ := step_raises_or_effect hstep
  · exact absurd rfl hrb
  cases he with
  | @adjust a v hi => exact ⟨a, hi ▸ hf⟩
  | _ => exact absurd rfl hrb

/-- A word that a write changed is the one written. -/
theorem Memory.eq_of_read_write_ne {m : Memory} {n x : Nat} {v : Word} (h : (m.write n v).read x ≠ m.read x) : x = n := by
  by_contra hx
  exact h (Memory.read_write_other hx m v)

/-- Settles O38: a storing effect writes memory once, and a fault or any other effect leaves it. -/
theorem aStepWritesAtMostOneWord : Obligations.AStepWritesAtMostOneWord := by
  intro s t x y hstep hx hy
  obtain ⟨-, ⟨r, -, rfl⟩ | ⟨i, hf, he⟩⟩ := step_raises_or_effect hstep
  · exact absurd rfl hx
  cases he with
  | store v hi hn =>
    exact ⟨(Memory.eq_of_read_write_ne hx).trans (Memory.eq_of_read_write_ne hy).symm, i, hf, hi.stores⟩
  | take v hi hn =>
    exact ⟨(Memory.eq_of_read_write_ne hx).trans (Memory.eq_of_read_write_ne hy).symm, i, hf, by rw [hi]; rfl⟩
  | _ => exact absurd rfl hx

end Sys2Proof.Machine

/-! SUPPORT. The decoder's errors against the opcode table (spec/30_encoding.md rules R68, R69, R72, R73), and the detail
of a fault. -/

namespace Sys2Proof

theorem contains_legalDigits_read (d : Nat) : Role.read.legalDigits.contains d = (readModeOfDigit d).isSome := by
  match d with
  | 0 | 1 | 2 => rfl
  | d + 3 => simp [Role.legalDigits, readModeOfDigit]

theorem contains_legalDigits_write (d : Nat) : Role.write.legalDigits.contains d = (writeModeOfDigit d).isSome := by
  match d with
  | 0 | 1 | 2 => rfl
  | d + 3 => simp [Role.legalDigits, writeModeOfDigit]

/-- The table's legal digits of a read operand are those the decoder reads a mode from. -/
theorem legalModes_cons_read (n k : Nat) (rs : List Role) :
    legalModes n (.read :: rs) k = ((readModeOfDigit (digit n k)).isSome && legalModes n rs (k + 1)) := by
  rw [legalModes, contains_legalDigits_read, digit]

theorem legalModes_cons_write (n k : Nat) (rs : List Role) :
    legalModes n (.write :: rs) k = ((writeModeOfDigit (digit n k)).isSome && legalModes n rs (k + 1)) := by
  rw [legalModes, contains_legalDigits_write, digit]

/-! ### A format that refuses a word found an illegal mode digit in it -/

theorem headerRead_error {mk : ReadMode → Header} {n : Nat} {e : WordError} (h : headerRead mk n = .error e) :
    e = .illegalMode ∧ legalModes n [.read] 2 = false := by
  unfold headerRead at h
  split at h
  next => cases h
  next ha =>
    cases h
    simp [legalModes_cons_read, ha]

theorem headerWrite_error {mk : WriteMode → Header} {n : Nat} {e : WordError} (h : headerWrite mk n = .error e) :
    e = .illegalMode ∧ legalModes n [.write] 2 = false := by
  unfold headerWrite at h
  split at h
  next => cases h
  next ha =>
    cases h
    simp [legalModes_cons_write, ha]

theorem headerReadRead_error {mk : ReadMode → ReadMode → Header} {n : Nat} {e : WordError}
    (h : headerReadRead mk n = .error e) : e = .illegalMode ∧ legalModes n [.read, .read] 2 = false := by
  unfold headerReadRead at h
  split at h
  next => cases h
  next hnone =>
    cases h
    refine ⟨rfl, Bool.eq_false_iff.2 fun hlegal => ?_⟩
    simp only [legalModes_cons_read, Bool.and_eq_true, Option.isSome_iff_exists] at hlegal
    obtain ⟨⟨a, ha⟩, ⟨b, hb⟩, -⟩ := hlegal
    exact hnone a b ha hb

theorem headerReadReadWrite_error {mk : ReadMode → ReadMode → WriteMode → Header} {n : Nat} {e : WordError}
    (h : headerReadReadWrite mk n = .error e) :
    e = .illegalMode ∧ legalModes n [.read, .read, .write] 2 = false := by
  unfold headerReadReadWrite at h
  split at h
  next => cases h
  next hnone =>
    cases h
    refine ⟨rfl, Bool.eq_false_iff.2 fun hlegal => ?_⟩
    simp only [legalModes_cons_read, legalModes_cons_write, Bool.and_eq_true, Option.isSome_iff_exists] at hlegal
    obtain ⟨⟨a, ha⟩, ⟨b, hb⟩, ⟨c, hc⟩, -⟩ := hlegal
    exact hnone a b c ha hb hc

/-! ### The decoder's errors -/

/-- What an error of the decoder says of the word, in terms of the opcode table. -/
def ErrorFits (w : Word) : WordError → Prop
  | .illegalOpcode => rowOf w = none
  | .illegalMode => (rowOf w).isSome = true ∧ wellFormedWord w = false

theorem rowOf_of_code {w : Word} {code : Nat} (hw : ¬ w.toInt < 0) (hcode : w.toNat % 100 = code) :
    rowOf w = opcodeTable.find? fun r => r.code == code := by
  rw [rowOf, if_neg hw, hcode]

theorem errorFits_of_row {w : Word} {r : OpcodeRow} {e : WordError} (hr : rowOf w = some r)
    (he : e = .illegalMode ∧ legalModes w.toNat r.roles 2 = false) : ErrorFits w e := by
  obtain ⟨rfl, hmodes⟩ := he
  simp [ErrorFits, wellFormedWord, hr, hmodes]

/-- A word refused for its opcode selects no row; one refused for its modes selects a row that they do not fit. -/
theorem decodeWord_error {w : Word} {e : WordError} (h : decodeWord w = .error e) : ErrorFits w e := by
  unfold decodeWord at h
  split at h
  next hneg =>
    cases h
    exact if_pos hneg
  next hw =>
    split at h
    next hc => exact errorFits_of_row (rowOf_of_code hw hc) (headerReadReadWrite_error h)
    next hc => exact errorFits_of_row (rowOf_of_code hw hc) (headerReadReadWrite_error h)
    next hc => exact errorFits_of_row (rowOf_of_code hw hc) (headerWrite_error h)
    next hc => exact errorFits_of_row (rowOf_of_code hw hc) (headerRead_error h)
    next hc => exact errorFits_of_row (rowOf_of_code hw hc) (headerReadRead_error h)
    next hc => exact errorFits_of_row (rowOf_of_code hw hc) (headerReadRead_error h)
    next hc => exact errorFits_of_row (rowOf_of_code hw hc) (headerReadReadWrite_error h)
    next hc => exact errorFits_of_row (rowOf_of_code hw hc) (headerReadReadWrite_error h)
    next hc => exact errorFits_of_row (rowOf_of_code hw hc) (headerRead_error h)
    next => cases h
    next h1 h2 h3 h4 h5 h6 h7 h8 h9 h99 =>
      cases h
      refine (rowOf_of_code hw rfl).trans ?_
      simp [opcodeTable, Ne.symm h1, Ne.symm h2, Ne.symm h3, Ne.symm h4, Ne.symm h5, Ne.symm h6, Ne.symm h7,
        Ne.symm h8, Ne.symm h9, Ne.symm h99]

end Sys2Proof

namespace Sys2Proof.Machine

/-- Only a fault ends a step Faulted. -/
theorem Effect.status_ne_faulted {i : Instr} {s t : State} (h : Effect i s t) (hs : s.status = .running) :
    t.status ≠ .faulted := by
  cases h <;> simp [hs]

/-- Settles O40: the step entered one of the faults it can raise, and a decoding error says what the opcode table says
of the word at `pc`. -/
theorem faultInfoHoldsTheDetail : Obligations.FaultInfoHoldsTheDetail := by
  intro s t hstep hfaulted
  obtain ⟨hs, ⟨r, hr, rfl⟩ | ⟨i, -, he⟩⟩ := step_raises_or_effect hstep
  · cases hr with
    | address hx => exact .inl ⟨rfl, hx⟩
    | @word e hpc hd =>
      have hfits := decodeWord_error hd
      cases e with
      | illegalOpcode => exact .inr (.inl ⟨rfl, rfl, hfits⟩)
      | illegalMode => exact .inr (.inr (.inl ⟨rfl, rfl, hfits⟩))
    | inputClosed hf hq hc => exact .inr (.inr (.inr ⟨rfl, rfl, hq, hc, _, hf⟩))
  · exact absurd hfaulted (he.status_ne_faulted hs)

end Sys2Proof.Machine

/-! SUPPORT. A canonical memory is the list of what it reads as (spec/10_state.md rule R28, spec/20_memory.md rule R43). -/

namespace Sys2Proof.Machine

/-- The cells of a canonical memory are the addresses that do not read as 0, with what they read as. -/
theorem Memory.mem_iff_read {m : Memory} (hm : m.wf) (c : Cell) : c ∈ m ↔ m.read c.1 = c.2 ∧ c.2 ≠ 0 := by
  induction m with
  | nil => simpa using fun h : 0 = c.2 => h.symm
  | cons d m ih =>
    obtain ⟨hsorted, hcells⟩ := hm
    obtain ⟨hhead, hrest⟩ := List.pairwise_cons.1 hsorted
    have ih := ih ⟨hrest, fun x hx => hcells x (List.mem_cons_of_mem d hx)⟩
    obtain ⟨k, v⟩ := d
    obtain ⟨a, x⟩ := c
    have hv : v ≠ 0 := (hcells (k, v) List.mem_cons_self).2
    by_cases hk : k = a
    · have hnot : (a, x) ∉ m := fun hmem => absurd (hhead _ hmem) (by simp [hk])
      subst hk
      simp only [List.mem_cons, hnot, or_false, Memory.read_cons, if_true, Prod.mk.injEq, true_and]
      exact ⟨fun h => ⟨h.symm, h ▸ hv⟩, fun h => h.1.symm⟩
    · simp only [List.mem_cons, Prod.mk.injEq, Ne.symm hk, false_and, false_or, Memory.read_cons, hk, if_false]
      exact ih

/-- Settles O9: the two lists have the same cells in the same strict order. -/
theorem canonicalMemoriesThatReadTheSameAreEqual : Obligations.CanonicalMemoriesThatReadTheSameAreEqual := by
  intro m n hm hn hread
  have : Std.Irrefl fun c d : Cell => c.1 < d.1 := ⟨fun c => Nat.lt_irrefl c.1⟩
  have : Std.Antisymm fun c d : Cell => c.1 < d.1 := ⟨fun _ _ h h' => absurd h (Nat.lt_asymm h')⟩
  refine List.Pairwise.eq_of_mem_iff hm.1 hn.1 fun c => ?_
  rw [Memory.mem_iff_read hm, Memory.mem_iff_read hn, hread]

end Sys2Proof.Machine

/-! SUPPORT. The reset of one machine of a network (spec/60_exceptions.md rule R166). -/

namespace Sys2Proof.Machine

/-- A machine whose inbound channel is wired is its stored state with its feeder's outbound channel. -/
theorem Network.machine_eq_some_iff_of_fed {net : Network} {i j : Nat} {s : State} (hf : net.feeder j = some i) :
    net.machine j = some s ↔
      ∃ a b, net.machines[i]? = some a ∧ net.machines[j]? = some b ∧ withInbound a b = s := by
  simp only [Network.machine_of_fed hf, Option.bind_eq_some_iff, Option.map_eq_some_iff, exists_and_left]

theorem Network.exists_stored {net : Network} {j : Nat} {s : State} (h : net.machine j = some s) :
    ∃ b, net.machines[j]? = some b := by
  cases hf : net.feeder j with
  | none => exact ⟨s, Network.machine_of_unfed hf ▸ h⟩
  | some i =>
    obtain ⟨-, b, -, hb, -⟩ := (Network.machine_eq_some_iff_of_fed hf).1 h
    exact ⟨b, hb⟩

section ResetMachine

variable {net : Network} {k l : Nat} {s u : State} (p : List Word) (ch : Channels)

@[simp] theorem Network.resetMachine_feeder (l : Nat) : (net.resetMachine k p ch).feeder l = net.feeder l := rfl

theorem Network.getElem?_resetMachine_self (h : net.machines[k]? = some s) :
    (net.resetMachine k p ch).machines[k]? = some (State.new p ch) := by
  obtain ⟨hk, -⟩ := List.getElem?_eq_some_iff.1 h
  exact List.getElem?_set_self hk

theorem Network.getElem?_resetMachine_ne (h : l ≠ k) :
    (net.resetMachine k p ch).machines[l]? = net.machines[l]? :=
  List.getElem?_set_ne h.symm

/-- A machine whose inbound channel the host binds is a fresh construction after its reset. -/
theorem Network.machine_resetMachine_of_unfed (hf : net.feeder k = none) (hk : net.machine k = some s) :
    (net.resetMachine k p ch).machine k = some (State.new p ch) := by
  rw [Network.machine_of_unfed hf] at hk
  rw [Network.machine_of_unfed (by simpa using hf), Network.getElem?_resetMachine_self p ch hk]

/-- A machine whose inbound channel is wired finds it after its reset as it stood. -/
theorem Network.machine_resetMachine_of_fed {i : Nat} (hwired : net.wired) (hf : net.feeder k = some i)
    (hk : net.machine k = some s) :
    (net.resetMachine k p ch).machine k =
      some (State.new p { ch with inq := s.inq, inClosed := s.inClosed, inCapacity := s.inCapacity }) := by
  have hik : i ≠ k := (hwired.1 _ ((Network.feeder_eq_some hwired).1 hf)).2.2
  obtain ⟨a, b, ha, hb, rfl⟩ := (Network.machine_eq_some_iff_of_fed hf).1 hk
  exact (Network.machine_eq_some_iff_of_fed (by simpa using hf)).2 ⟨a, State.new p ch,
    (Network.getElem?_resetMachine_ne p ch hik).trans ha, Network.getElem?_resetMachine_self p ch hb, rfl⟩

/-- A machine that `k` feeds sees the outbound channel of a fresh machine. -/
theorem Network.machine_resetMachine_sink (hwired : net.wired) (hkl : (⟨k, l⟩ : Wire) ∈ net.wires)
    (hk : net.machine k = some s) (hl : net.machine l = some u) :
    (net.resetMachine k p ch).machine l = some (withInbound (State.new p ch) u) := by
  have hlk : l ≠ k := (hwired.1 _ hkl).2.2.symm
  have hf : net.feeder l = some k := (Network.feeder_eq_some hwired).2 hkl
  obtain ⟨b, hb⟩ := Network.exists_stored hk
  obtain ⟨-, c, -, hc, rfl⟩ := (Network.machine_eq_some_iff_of_fed hf).1 hl
  exact (Network.machine_eq_some_iff_of_fed (by simpa using hf)).2 ⟨State.new p ch, c,
    Network.getElem?_resetMachine_self p ch hb, (Network.getElem?_resetMachine_ne p ch hlk).trans hc, rfl⟩

/-- A machine other than `k` that `k` does not feed is as it was. -/
theorem Network.machine_resetMachine_other (hwired : net.wired) (hlk : l ≠ k) (hkl : (⟨k, l⟩ : Wire) ∉ net.wires) :
    (net.resetMachine k p ch).machine l = net.machine l := by
  cases hf : net.feeder l with
  | none =>
    rw [Network.machine_of_unfed hf, Network.machine_of_unfed (by simpa using hf),
      Network.getElem?_resetMachine_ne p ch hlk]
  | some i =>
    have hik : i ≠ k := by
      rintro rfl
      exact hkl ((Network.feeder_eq_some hwired).1 hf)
    rw [Network.machine_of_fed hf, Network.machine_of_fed (i := i) (by simpa using hf),
      Network.getElem?_resetMachine_ne p ch hlk, Network.getElem?_resetMachine_ne p ch hik]

end ResetMachine

/-- Settles O59: a reset replaces the stored state of machine `k` alone, which besides `k` only the machine that it feeds
sees, in its inbound channel. -/
theorem eachMachineHasItsOwnReset : Obligations.EachMachineHasItsOwnReset := by
  intro net k p ch s hwired hk
  refine ⟨?_, fun l u hkl hl => Network.machine_resetMachine_sink p ch hwired hkl hk hl,
    fun l hlk hkl => Network.machine_resetMachine_other p ch hwired hlk hkl⟩
  cases hf : net.feeder k with
  | none =>
    exact ⟨_, Network.machine_resetMachine_of_unfed p ch hf hk, fun _ => rfl, fun h => absurd rfl h⟩
  | some i =>
    exact ⟨_, Network.machine_resetMachine_of_fed p ch hwired hf hk, fun h => by simp at h, fun _ => rfl⟩

end Sys2Proof.Machine

/-! SUPPORT. The checked reads and writes of memory (spec/20_memory.md rules R41, R42). -/

namespace Sys2Proof.Machine

theorem memRead_of_neg {a : Word} (h : a.toInt < 0) (s : State) : memRead s a = .error ⟨.invalidAddress, a⟩ := by
  rcases memRead_cases s a with ⟨-, hr⟩ | ⟨hn, -⟩
  · exact hr
  · omega

theorem memRead_of_nonneg {a : Word} (h : 0 ≤ a.toInt) (s : State) : memRead s a = .ok (s.mem.read a.toNat) := by
  rcases memRead_cases s a with ⟨hn, -⟩ | ⟨-, hr⟩
  · omega
  · exact hr

theorem memWrite_of_neg {a : Word} (h : a.toInt < 0) (s : State) (v : Word) :
    memWrite s a v = .error ⟨.invalidAddress, a⟩ := by
  rcases memWrite_cases s a v with ⟨-, hw⟩ | ⟨hn, -⟩
  · exact hw
  · omega

theorem memWrite_of_nonneg {a : Word} (h : 0 ≤ a.toInt) (s : State) (v : Word) :
    memWrite s a v = .ok (storeWord a.toNat v s) := by
  rcases memWrite_cases s a v with ⟨hn, -⟩ | ⟨-, hw⟩
  · omega
  · exact hw

theorem memRead_storeWord_same {a : Word} (h : 0 ≤ a.toInt) (s : State) (v : Word) :
    memRead (storeWord a.toNat v s) a = .ok v := by
  rw [memRead_of_nonneg h, storeWord_mem, Memory.read_write_same]

/-- A store leaves every other word's read as it was, a negative one's fault too. -/
theorem memRead_storeWord_other {a b : Word} (h : b ≠ a) (s : State) (v : Word) :
    memRead (storeWord a.toNat v s) b = memRead s b := by
  have hne : b.toNat ≠ a.toNat := fun he => h (BitVec.eq_of_toNat_eq he)
  rcases memRead_cases s b with ⟨hneg, hr⟩ | ⟨hn, hr⟩
  · rw [hr, memRead_of_neg hneg]
  · rw [hr, memRead_of_nonneg hn, storeWord_mem, Memory.read_write_other hne]

/-- Settles O7, by the sign of the address; an address that is not listed reads as 0. -/
theorem memoryReadAnswersTheStoredWord : Obligations.MemoryReadAnswersTheStoredWord := by
  intro s a
  refine ⟨fun h => memRead_of_neg h s, fun h => memRead_of_nonneg h s, fun h hunlisted => ?_⟩
  rw [memRead_of_nonneg h, Memory.read_eq_zero_of_unlisted hunlisted]

/-- Settles O8: a checked write at an address that exists is a store, which is read back there and nowhere else. -/
theorem memoryWriteThenRead : Obligations.MemoryWriteThenRead := by
  intro s a v
  exact ⟨fun h => memWrite_of_neg h s v, fun h =>
    ⟨storeWord a.toNat v s, memWrite_of_nonneg h s v, memRead_storeWord_same h s v,
      fun _ hb => memRead_storeWord_other hb s v, rfl⟩⟩

end Sys2Proof.Machine

/-! SUPPORT. Decoding what the encoder wrote (spec/30_encoding.md rules R60, R72, R73). -/

namespace Sys2Proof

/-- The decoder reads a header back from its instruction word; there are finitely many headers. -/
@[simp] theorem decodeWord_word (h : Header) : decodeWord h.word = .ok h := by
  cases h with
  | add a b c => cases a <;> cases b <;> cases c <;> decide
  | mul a b c => cases a <;> cases b <;> cases c <;> decide
  | input a => cases a <;> decide
  | output a => cases a <;> decide
  | jumpIfTrue a b => cases a <;> cases b <;> decide
  | jumpIfFalse a b => cases a <;> cases b <;> decide
  | lessThan a b c => cases a <;> cases b <;> cases c <;> decide
  | equals a b c => cases a <;> cases b <;> cases c <;> decide
  | adjustRelativeBase a => cases a <;> decide
  | halt => decide

@[simp] theorem ReadOperand.operand_mode_raw (a : ReadOperand) : a.mode.operand a.raw = a := by cases a <;> rfl

@[simp] theorem WriteOperand.operand_mode_raw (a : WriteOperand) : a.mode.operand a.raw = a := by cases a <;> rfl

@[simp] theorem Instr.raws_length (i : Instr) : i.raws.length = i.header.arity := by cases i <;> rfl

theorem encode_length (i : Instr) : (encode i).length = i.header.arity + 1 := by simp [encode]

/-- An instruction is its header with its own raw operand words. -/
@[simp] theorem Instr.instr_header_raws (i : Instr) : i.header.instr i.raws = i := by
  cases i <;> simp [Instr.header, Instr.raws, Header.instr, rawWord]

end Sys2Proof

/-! SUPPORT. Fetching an instruction whose words all have addresses (spec/20_memory.md rule R54,
spec/40_fetch_dispatch.md rules R80 to R82). -/

namespace Sys2Proof.Machine

theorem toInt_eq_toNat_of_nonneg {a : Word} (h : 0 ≤ a.toInt) : a.toInt = a.toNat := by
  have := toNat_lt_addressLimit h
  exact BitVec.toInt_eq_toNat_of_lt (by simp only [addressLimit] at this; omega)

section Placed

variable {s : State} (hpc : 0 ≤ s.pc.toInt)
include hpc

/-- The address of a raw operand does not wrap where it exists. -/
theorem rawAddr_toInt {k : Nat} (hk : s.pc.toNat + k < addressLimit) :
    (rawAddr s k).toInt = (s.pc.toNat + k : Nat) := by
  have hsum : s.pc.toInt + k = (s.pc.toNat + k : Nat) := by rw [toInt_eq_toNat_of_nonneg hpc, Nat.cast_add]
  simp only [addressLimit] at hk
  rw [rawAddr, hsum, wrap64_toInt_of_inRange (by omega) (by omega)]

theorem memRead_rawAddr {k : Nat} (hk : s.pc.toNat + k < addressLimit) :
    memRead s (rawAddr s k) = .ok (s.mem.read (s.pc.toNat + k)) := by
  have hint := rawAddr_toInt hpc hk
  have hnonneg : 0 ≤ (rawAddr s k).toInt := hint ▸ Int.natCast_nonneg _
  have hnat : (rawAddr s k).toNat = s.pc.toNat + k :=
    Int.natCast_inj.1 ((toInt_eq_toNat_of_nonneg hnonneg).symm.trans hint)
  rw [memRead_of_nonneg hnonneg, hnat]

/-- The raw operand words fetched are the `n` words of memory after `pc`. -/
theorem fetchRaws_of_fits {n : Nat} (hn : s.pc.toNat + n < addressLimit) :
    fetchRaws s n = .ok ((List.range n).map fun k => s.mem.read (s.pc.toNat + (k + 1))) := by
  induction n with
  | zero => rfl
  | succ n ih =>
    rw [fetchRaws, ih (by omega), memRead_rawAddr hpc hn]
    simp [List.range_succ]

/-- The fetch answers the instruction whose words stand at `pc`. -/
theorem fetch_of_placed {i : Instr} (hfits : s.pc.toNat + (encode i).length ≤ addressLimit)
    (hplaced : ∀ k, k < (encode i).length → s.mem.read (s.pc.toNat + k) = (encode i).getD k 0) :
    fetch s = .ok i := by
  have hlen := encode_length i
  have hword : memRead s s.pc = .ok i.header.word := by
    rw [memRead_of_nonneg hpc]
    exact congrArg Except.ok (hplaced 0 (by omega))
  have hraws : fetchRaws s i.header.arity = .ok i.raws := by
    rw [fetchRaws_of_fits hpc (by omega)]
    refine congrArg Except.ok (List.ext_getElem (by simp) fun k _ hk => ?_)
    rw [Instr.raws_length] at hk
    rw [List.getElem_map, List.getElem_range, hplaced (k + 1) (by omega)]
    simp [encode, hk]
  simp [fetch, hword, hraws]

end Placed

/-- Settles O15: the fetch answers the placed instruction, and a Running machine executes what it fetches. -/
theorem placedInstructionIsExecuted : Obligations.PlacedInstructionIsExecuted := by
  intro i s hs hpc hfits hplaced
  exact step_of_fetch hs (fetch_of_placed hpc hfits hplaced)

end Sys2Proof.Machine

/-! SUPPORT. The decoder's answers against the opcode table (spec/30_encoding.md rules R63 to R67, R72, R73), and reading
back an encoded instruction. -/

namespace Sys2Proof

/-! ### Mode digits -/

@[simp] theorem legalModes_nil (n k : Nat) : legalModes n [] k = true := rfl

theorem toDigit_of_readModeOfDigit {d : Nat} {a : ReadMode} (h : readModeOfDigit d = some a) : a.toDigit = d := by
  unfold readModeOfDigit at h
  split at h <;> cases h <;> rfl

theorem toDigit_of_writeModeOfDigit {d : Nat} {a : WriteMode} (h : writeModeOfDigit d = some a) : a.toDigit = d := by
  unfold writeModeOfDigit at h
  split at h <;> cases h <;> rfl

/-! ### What a format that accepts a word has read from it -/

theorem headerRead_ok {mk : ReadMode → Header} {n : Nat} {h : Header} (hok : headerRead mk n = .ok h) :
    ∃ a, readModeOfDigit (digit n 2) = some a ∧ h = mk a := by
  unfold headerRead at hok
  split at hok
  next a ha =>
    cases hok
    exact ⟨a, ha, rfl⟩
  next => cases hok

theorem headerWrite_ok {mk : WriteMode → Header} {n : Nat} {h : Header} (hok : headerWrite mk n = .ok h) :
    ∃ a, writeModeOfDigit (digit n 2) = some a ∧ h = mk a := by
  unfold headerWrite at hok
  split at hok
  next a ha =>
    cases hok
    exact ⟨a, ha, rfl⟩
  next => cases hok

theorem headerReadRead_ok {mk : ReadMode → ReadMode → Header} {n : Nat} {h : Header}
    (hok : headerReadRead mk n = .ok h) :
    ∃ a b, readModeOfDigit (digit n 2) = some a ∧ readModeOfDigit (digit n 3) = some b ∧ h = mk a b := by
  unfold headerReadRead at hok
  split at hok
  next a b ha hb =>
    cases hok
    exact ⟨a, b, ha, hb, rfl⟩
  next => cases hok

theorem headerReadReadWrite_ok {mk : ReadMode → ReadMode → WriteMode → Header} {n : Nat} {h : Header}
    (hok : headerReadReadWrite mk n = .ok h) :
    ∃ a b c, readModeOfDigit (digit n 2) = some a ∧ readModeOfDigit (digit n 3) = some b ∧
      writeModeOfDigit (digit n 4) = some c ∧ h = mk a b c := by
  unfold headerReadReadWrite at hok
  split at hok
  next a b c ha hb hc =>
    cases hok
    exact ⟨a, b, c, ha, hb, hc, rfl⟩
  next => cases hok

/-! ### The header the decoder answers -/

/-- What the decoder's header says of the word, in terms of the row of the opcode table that the word selects. -/
structure HeaderFits (w : Word) (h : Header) (r : OpcodeRow) : Prop where
  row : rowOf w = some r
  legal : legalModes w.toNat r.roles 2 = true
  arity : h.arity = r.roles.length
  digits : h.toNat = w.toNat % 10 ^ (h.arity + 2)

section Formats

variable {w : Word} {name : String} {code : Nat} {h : Header}

theorem headerFits_read {mk : ReadMode → Header} (hrow : rowOf w = some ⟨name, code, [.read]⟩)
    (hcode : w.toNat % 100 = code)
    (hmk : ∀ a, (mk a).arity = 1 ∧ (mk a).toNat = headerDigits code a.toDigit 0 0)
    (hok : headerRead mk w.toNat = .ok h) : HeaderFits w h ⟨name, code, [.read]⟩ := by
  obtain ⟨a, ha, rfl⟩ := headerRead_ok hok
  obtain ⟨harity, hdigits⟩ := hmk a
  refine ⟨hrow, by simp [legalModes_cons_read, ha], harity, ?_⟩
  rw [hdigits, harity, toDigit_of_readModeOfDigit ha]
  simp only [headerDigits, digit]
  omega

theorem headerFits_write {mk : WriteMode → Header} (hrow : rowOf w = some ⟨name, code, [.write]⟩)
    (hcode : w.toNat % 100 = code)
    (hmk : ∀ a, (mk a).arity = 1 ∧ (mk a).toNat = headerDigits code a.toDigit 0 0)
    (hok : headerWrite mk w.toNat = .ok h) : HeaderFits w h ⟨name, code, [.write]⟩ := by
  obtain ⟨a, ha, rfl⟩ := headerWrite_ok hok
  obtain ⟨harity, hdigits⟩ := hmk a
  refine ⟨hrow, by simp [legalModes_cons_write, ha], harity, ?_⟩
  rw [hdigits, harity, toDigit_of_writeModeOfDigit ha]
  simp only [headerDigits, digit]
  omega

theorem headerFits_readRead {mk : ReadMode → ReadMode → Header}
    (hrow : rowOf w = some ⟨name, code, [.read, .read]⟩) (hcode : w.toNat % 100 = code)
    (hmk : ∀ a b, (mk a b).arity = 2 ∧ (mk a b).toNat = headerDigits code a.toDigit b.toDigit 0)
    (hok : headerReadRead mk w.toNat = .ok h) : HeaderFits w h ⟨name, code, [.read, .read]⟩ := by
  obtain ⟨a, b, ha, hb, rfl⟩ := headerReadRead_ok hok
  obtain ⟨harity, hdigits⟩ := hmk a b
  refine ⟨hrow, by simp [legalModes_cons_read, ha, hb], harity, ?_⟩
  rw [hdigits, harity, toDigit_of_readModeOfDigit ha, toDigit_of_readModeOfDigit hb]
  simp only [headerDigits, digit]
  omega

theorem headerFits_readReadWrite {mk : ReadMode → ReadMode → WriteMode → Header}
    (hrow : rowOf w = some ⟨name, code, [.read, .read, .write]⟩) (hcode : w.toNat % 100 = code)
    (hmk : ∀ a b c, (mk a b c).arity = 3 ∧ (mk a b c).toNat = headerDigits code a.toDigit b.toDigit c.toDigit)
    (hok : headerReadReadWrite mk w.toNat = .ok h) : HeaderFits w h ⟨name, code, [.read, .read, .write]⟩ := by
  obtain ⟨a, b, c, ha, hb, hc, rfl⟩ := headerReadReadWrite_ok hok
  obtain ⟨harity, hdigits⟩ := hmk a b c
  refine ⟨hrow, by simp [legalModes_cons_read, legalModes_cons_write, ha, hb, hc], harity, ?_⟩
  rw [hdigits, harity, toDigit_of_readModeOfDigit ha, toDigit_of_readModeOfDigit hb, toDigit_of_writeModeOfDigit hc]
  simp only [headerDigits, digit]
  omega

end Formats

/-- The header the decoder answers is that of a row the word selects and fits. -/
theorem decodeWord_ok {w : Word} {h : Header} (hok : decodeWord w = .ok h) : ∃ r, HeaderFits w h r := by
  unfold decodeWord at hok
  split at hok
  next => cases hok
  next hw =>
    split at hok
    next hc => exact ⟨_, headerFits_readReadWrite (rowOf_of_code hw hc) hc (fun _ _ _ => ⟨rfl, rfl⟩) hok⟩
    next hc => exact ⟨_, headerFits_readReadWrite (rowOf_of_code hw hc) hc (fun _ _ _ => ⟨rfl, rfl⟩) hok⟩
    next hc => exact ⟨_, headerFits_write (rowOf_of_code hw hc) hc (fun _ => ⟨rfl, rfl⟩) hok⟩
    next hc => exact ⟨_, headerFits_read (rowOf_of_code hw hc) hc (fun _ => ⟨rfl, rfl⟩) hok⟩
    next hc => exact ⟨_, headerFits_readRead (rowOf_of_code hw hc) hc (fun _ _ => ⟨rfl, rfl⟩) hok⟩
    next hc => exact ⟨_, headerFits_readRead (rowOf_of_code hw hc) hc (fun _ _ => ⟨rfl, rfl⟩) hok⟩
    next hc => exact ⟨_, headerFits_readReadWrite (rowOf_of_code hw hc) hc (fun _ _ _ => ⟨rfl, rfl⟩) hok⟩
    next hc => exact ⟨_, headerFits_readReadWrite (rowOf_of_code hw hc) hc (fun _ _ _ => ⟨rfl, rfl⟩) hok⟩
    next hc => exact ⟨_, headerFits_read (rowOf_of_code hw hc) hc (fun _ => ⟨rfl, rfl⟩) hok⟩
    next hc =>
      cases hok
      exact ⟨_, rowOf_of_code hw hc, rfl, rfl, hc.symm⟩
    next => cases hok

theorem decodeWord_of_rowOf_none {w : Word} (hrow : rowOf w = none) : decodeWord w = .error .illegalOpcode := by
  cases hd : decodeWord w with
  | ok h =>
    obtain ⟨r, hfits⟩ := decodeWord_ok hd
    exact absurd (hrow.symm.trans hfits.row) (Option.some_ne_none r).symm
  | error e =>
    cases e with
    | illegalOpcode => rfl
    | illegalMode => simpa [hrow] using (decodeWord_error hd).1

/-- A word that selects a row is refused only for its modes. -/
theorem decodeWord_of_rowOf_some {w : Word} {r : OpcodeRow} (hrow : rowOf w = some r) :
    (legalModes w.toNat r.roles 2 = false ∧ decodeWord w = .error .illegalMode) ∨
    (∃ h, decodeWord w = .ok h ∧ HeaderFits w h r) := by
  cases hd : decodeWord w with
  | ok h =>
    obtain ⟨r', hfits⟩ := decodeWord_ok hd
    obtain rfl : r = r' := Option.some.inj (hrow.symm.trans hfits.row)
    exact .inr ⟨h, rfl, hfits⟩
  | error e =>
    have he := decodeWord_error hd
    cases e with
    | illegalOpcode => exact absurd (hrow.symm.trans he) (Option.some_ne_none r)
    | illegalMode =>
      refine .inl ⟨?_, rfl⟩
      simpa [wellFormedWord, hrow] using he.2

theorem decodeWord_of_legalModes {w : Word} {r : OpcodeRow} (hrow : rowOf w = some r)
    (hlegal : legalModes w.toNat r.roles 2 = true) : ∃ h, decodeWord w = .ok h ∧ HeaderFits w h r := by
  obtain ⟨hillegal, -⟩ | hok := decodeWord_of_rowOf_some hrow
  · exact absurd hlegal (by simp [hillegal])
  · exact hok

/-- Settles O4: an error of the decoder and a header of the decoder each say of the word what the opcode table says, so
the table decides which of them it answers. -/
theorem decodeWordFollowsTheOpcodeMap : Obligations.DecodeWordFollowsTheOpcodeMap := by
  refine fun w => ⟨decodeWord_of_rowOf_none, fun r hrow hillegal => ?_, fun r hrow hlegal => ?_, rfl, rfl⟩
  · obtain ⟨-, herror⟩ | ⟨h, -, hfits⟩ := decodeWord_of_rowOf_some hrow
    · exact herror
    · exact absurd hfits.legal (by simp [hillegal])
  · obtain ⟨h, hok, hfits⟩ := decodeWord_of_legalModes hrow hlegal
    exact ⟨h, hok, hfits.arity, hfits.digits⟩

/-! ### Digits that are not examined -/

theorem mod_ten_pow_congr {n n' j k : Nat} (hjk : j ≤ k) (h : n' % 10 ^ k = n % 10 ^ k) : n' % 10 ^ j = n % 10 ^ j :=
  Nat.ModEq.of_dvd (pow_dvd_pow 10 hjk) h

theorem div_ten_pow_mod_congr {n n' k : Nat} (h : n' % 10 ^ (k + 1) = n % 10 ^ (k + 1)) :
    n' / 10 ^ k % 10 = n / 10 ^ k % 10 := by
  rw [← Nat.mod_mul_right_div_self, ← Nat.mod_mul_right_div_self, ← pow_succ, h]

/-- The table's test of `m` mode digits from position `k` on sees the digits below position `k + m` only. -/
theorem legalModes_congr {n n' : Nat} (roles : List Role) (k : Nat)
    (h : n' % 10 ^ (k + roles.length) = n % 10 ^ (k + roles.length)) : legalModes n' roles k = legalModes n roles k := by
  induction roles generalizing k with
  | nil => rfl
  | cons r rs ih =>
    rw [List.length_cons, Nat.add_comm rs.length, ← Nat.add_assoc] at h
    have hdigit := div_ten_pow_mod_congr (mod_ten_pow_congr (Nat.le_add_right (k + 1) rs.length) h)
    rw [legalModes, legalModes, hdigit, ih (k + 1) h]

theorem rowOf_eq_some_nonneg {w : Word} {r : OpcodeRow} (h : rowOf w = some r) : 0 ≤ w.toInt := by
  unfold rowOf at h
  split at h
  · cases h
  · omega

/-- Of a word that is not negative, the table looks at the two lowest digits to select a row. -/
theorem rowOf_congr {w w' : Word} (hw : 0 ≤ w.toInt) (hw' : 0 ≤ w'.toInt) (h : w'.toNat % 100 = w.toNat % 100) :
    rowOf w' = rowOf w := by
  rw [rowOf, rowOf, if_neg (by omega), if_neg (by omega), h]

/-- The number of a header is its instruction word: no digit is lost in 64 bits. -/
@[simp] theorem Header.toNat_word (h : Header) : h.word.toNat = h.toNat := by
  obtain ⟨r, hfits⟩ := decodeWord_ok (decodeWord_word h)
  have hle : h.toNat ≤ h.word.toNat := hfits.digits ▸ Nat.mod_le _ _
  exact Nat.le_antisymm (Nat.mod_le _ _) hle

/-- Headers with the same number are equal, since the decoder reads each back. -/
theorem Header.eq_of_toNat_eq {h h' : Header} (heq : h.toNat = h'.toNat) : h = h' := by
  have hword : h.word = h'.word := congrArg (BitVec.ofNat 64) heq
  have hok : (Except.ok h : Except WordError Header) = .ok h' := by rw [← decodeWord_word, hword, decodeWord_word]
  exact Except.ok.inj hok

/-- Settles O5: a word that agrees in the examined digits selects the same row with the same legal modes, so it decodes
to a header with the same number, and the number fixes the header. -/
theorem ignoredDigitsDoNotMatter : Obligations.IgnoredDigitsDoNotMatter := by
  constructor
  · intro w w' h hok hw' hagree
    obtain ⟨r, hfits⟩ := decodeWord_ok hok
    have hrow' : rowOf w' = some r :=
      (rowOf_congr (rowOf_eq_some_nonneg hfits.row) hw' (mod_ten_pow_congr (Nat.le_add_left 2 h.arity) hagree)).trans
        hfits.row
    have hagree' : w'.toNat % 10 ^ (2 + r.roles.length) = w.toNat % 10 ^ (2 + r.roles.length) := by
      rwa [← hfits.arity, Nat.add_comm]
    have hlegal' : legalModes w'.toNat r.roles 2 = true := (legalModes_congr r.roles 2 hagree').trans hfits.legal
    obtain ⟨h', hok', hfits'⟩ := decodeWord_of_legalModes hrow' hlegal'
    have harity : h'.arity = h.arity := hfits'.arity.trans hfits.arity.symm
    have hnum : h'.toNat = h.toNat := by rw [hfits'.digits, harity, hagree, hfits.digits]
    rw [hok', Header.eq_of_toNat_eq hnum]
  · intro w h hok
    obtain ⟨r, hfits⟩ := decodeWord_ok hok
    exact ⟨decodeWord_word h, (Header.toNat_word h).trans hfits.digits⟩

/-! ### Reading back an encoded instruction -/

/-- The words after the raw operand words do not matter to the instruction. -/
@[simp] theorem Instr.instr_header_raws_append (i : Instr) (rest : List Word) :
    i.header.instr (i.raws ++ rest) = i := by
  cases i <;> simp [Instr.header, Instr.raws, Header.instr, rawWord]

/-- Settles O3: the decoder reads the header back from the instruction word, the header takes the raw operand words it
was encoded with, and exactly those are dropped. -/
theorem decodeOfEncodeIsTheInstruction : Obligations.DecodeOfEncodeIsTheInstruction := by
  intro i rest
  have hlen : ¬ (i.raws ++ rest).length < i.header.arity := by simp
  have hdrop : (i.raws ++ rest).drop i.header.arity = rest := by rw [← i.raws_length, List.drop_left]
  simp only [encode, List.cons_append, decode, decodeWord_word, if_neg hlen, hdrop, Instr.instr_header_raws_append]

/-- Settles O6, by running the decoder on the eight words. -/
theorem wordsOfTheSpecDecode : Obligations.WordsOfTheSpecDecode := by
  unfold Obligations.WordsOfTheSpecDecode
  decide

end Sys2Proof

/-! SUPPORT. The Loader on the text of a program (spec/30_encoding.md rule R76; spec/70_reset_and_hazards.md rules R183,
R184). -/

namespace Sys2Proof.Machine

/-! ### Digits -/

/-- The characters the Loader takes for a decimal digit. -/
abbrev IsDigit (c : Char) : Prop := 48 ≤ c.toNat ∧ c.toNat ≤ 57

theorem toNat_digitChar {d : Nat} (hd : d < 10) : (Char.ofNat (48 + d)).toNat = 48 + d := by
  rw [Char.toNat_ofNat, if_pos (.inl (by omega))]

theorem isDigit_digitChar {d : Nat} (hd : d < 10) : IsDigit (Char.ofNat (48 + d)) := by
  rw [IsDigit, toNat_digitChar hd]
  omega

theorem digitsValue_append (xs ys : List Char) (acc : Nat) :
    digitsValue acc (xs ++ ys) = (digitsValue acc xs).bind fun a => digitsValue a ys := by
  induction xs generalizing acc with
  | nil => rfl
  | cons c cs ih =>
    rw [List.cons_append, digitsValue, digitsValue]
    split
    · exact ih _
    · rfl

theorem digitsValue_digitChar {d : Nat} (hd : d < 10) (acc : Nat) :
    digitsValue acc [Char.ofNat (48 + d)] = some (10 * acc + d) := by
  rw [digitsValue, if_pos (isDigit_digitChar hd), digitsValue, toNat_digitChar hd, Nat.add_sub_cancel_left]

theorem renderNat_ne_nil (fuel n : Nat) : renderNat fuel n ≠ [] := by
  cases fuel with
  | zero => simp [renderNat]
  | succ fuel =>
    rw [renderNat]
    split <;> simp

theorem isDigit_of_mem_renderNat {fuel n : Nat} {c : Char} (h : c ∈ renderNat fuel n) : IsDigit c := by
  induction fuel generalizing n with
  | zero =>
    obtain rfl := List.mem_singleton.1 h
    exact isDigit_digitChar (Nat.mod_lt n (by decide))
  | succ fuel ih =>
    rw [renderNat] at h
    split at h
    next hn =>
      obtain rfl := List.mem_singleton.1 h
      exact isDigit_digitChar hn
    next =>
      obtain h | h := List.mem_append.1 h
      · exact ih h
      · obtain rfl := List.mem_singleton.1 h
        exact isDigit_digitChar (Nat.mod_lt n (by decide))

/-- The rendered digits have the value they were rendered from, where there is fuel for all of them. -/
theorem digitsValue_renderNat {fuel n : Nat} (hn : n < 10 ^ (fuel + 1)) : digitsValue 0 (renderNat fuel n) = some n := by
  induction fuel generalizing n with
  | zero =>
    have hlt : n < 10 := hn
    rw [renderNat, Nat.mod_eq_of_lt hlt, digitsValue_digitChar hlt, Nat.mul_zero, Nat.zero_add]
  | succ fuel ih =>
    rw [renderNat]
    split
    next hlt => rw [digitsValue_digitChar hlt, Nat.mul_zero, Nat.zero_add]
    next =>
      have hhigh : n / 10 < 10 ^ (fuel + 1) := Nat.div_lt_of_lt_mul (by rwa [← pow_succ'])
      rw [digitsValue_append, ih hhigh, Option.bind_some, digitsValue_digitChar (Nat.mod_lt n (by decide)),
        Nat.div_add_mod]

/-! ### One word -/

theorem unsignedValue_of_ne_nil {cs : List Char} (h : cs ≠ []) : unsignedValue cs = digitsValue 0 cs := by
  cases cs with
  | nil => exact absurd rfl h
  | cons c cs => rfl

theorem tokenValue_minus {cs : List Char} {n : Nat} (h : unsignedValue cs = some n) :
    tokenValue ('-' :: cs) = some (-(n : Int)) := by
  simp only [tokenValue, h]
  rfl

theorem tokenValue_of_digits {cs : List Char} {n : Nat} (hdigits : ∀ c ∈ cs, IsDigit c)
    (h : unsignedValue cs = some n) : tokenValue cs = some (n : Int) := by
  unfold tokenValue
  split
  next => exact absurd (hdigits '-' List.mem_cons_self) (by decide)
  next =>
    rw [h]
    rfl

theorem unsignedValue_renderNat {n : Nat} (h : n ≤ 2 ^ 63) : unsignedValue (renderNat 18 n) = some n := by
  rw [unsignedValue_of_ne_nil (renderNat_ne_nil 18 n), digitsValue_renderNat (by omega)]

theorem tokenValue_renderWord (w : Word) : tokenValue (renderWord w) = some w.toInt := by
  have hlo := BitVec.le_toInt w
  have hhi := BitVec.toInt_lt (x := w)
  have hval := unsignedValue_renderNat (n := w.toInt.natAbs) (by omega)
  unfold renderWord
  split
  next hneg =>
    rw [tokenValue_minus hval, Int.ofNat_natAbs_of_nonpos (Int.le_of_lt hneg), Int.neg_neg]
  next hnonneg =>
    rw [tokenValue_of_digits (fun _ => isDigit_of_mem_renderNat) hval, Int.natAbs_of_nonneg (Int.not_lt.1 hnonneg)]

/-- The text of a word is a valid token of that word. -/
@[simp] theorem tokenWord_renderWord (w : Word) : tokenWord (renderWord w) = some w := by
  have hlo := BitVec.le_toInt w
  have hhi := BitVec.toInt_lt (x := w)
  simp only [tokenWord, tokenValue_renderWord]
  rw [if_pos ⟨hlo, hhi⟩, wrap64_toInt_self]

theorem renderWord_ne_nil (w : Word) : renderWord w ≠ [] := by
  unfold renderWord
  split
  · exact List.cons_ne_nil _ _
  · exact renderNat_ne_nil _ _

theorem mem_renderWord {w : Word} {c : Char} (h : c ∈ renderWord w) : c = '-' ∨ IsDigit c := by
  unfold renderWord at h
  split at h
  · exact (List.mem_cons.1 h).imp_right isDigit_of_mem_renderNat
  · exact .inr (isDigit_of_mem_renderNat h)

theorem comma_notMem_renderWord (w : Word) : ',' ∉ renderWord w := fun h => by
  obtain h | h := mem_renderWord h
  · exact absurd h (by decide)
  · exact absurd h (by decide)

/-! ### The tokens of a program text -/

@[simp] theorem renderProgram_cons_cons (v w : Word) (ws : List Word) :
    renderProgram (v :: w :: ws) = renderWord v ++ ',' :: renderProgram (w :: ws) := rfl

theorem splitCommas_of_no_comma {t : List Char} (h : ',' ∉ t) : splitCommas t = [t] := by
  induction t with
  | nil => rfl
  | cons c cs ih =>
    rw [splitCommas, if_neg (List.ne_of_not_mem_cons h).symm, ih (List.not_mem_of_not_mem_cons h)]

theorem splitCommas_append_comma {t : List Char} (h : ',' ∉ t) (rest : List Char) :
    splitCommas (t ++ ',' :: rest) = t :: splitCommas rest := by
  induction t with
  | nil => rfl
  | cons c cs ih =>
    rw [List.cons_append, splitCommas, if_neg (List.ne_of_not_mem_cons h).symm, ih (List.not_mem_of_not_mem_cons h)]

theorem splitCommas_renderProgram {ws : List Word} (h : ws ≠ []) :
    splitCommas (renderProgram ws) = ws.map renderWord := by
  induction ws with
  | nil => exact absurd rfl h
  | cons v ws ih =>
    cases ws with
    | nil => exact splitCommas_of_no_comma (comma_notMem_renderWord v)
    | cons w ws =>
      rw [renderProgram_cons_cons, splitCommas_append_comma (comma_notMem_renderWord v), ih (List.cons_ne_nil w ws),
        ← List.map_cons]

theorem tokenWords_map_renderWord (ws : List Word) : tokenWords (ws.map renderWord) = .ok ws := by
  induction ws with
  | nil => rfl
  | cons w ws ih => simp only [List.map_cons, tokenWords, tokenWord_renderWord, ih]

/-! ### Whitespace around a text -/

theorem isBlank_eq_false_of_mem_renderWord {w : Word} {c : Char} (h : c ∈ renderWord w) : isBlank c = false := by
  obtain rfl | ⟨hlo, -⟩ := mem_renderWord h
  · rfl
  · have hne : ∀ b : Char, b.toNat < 48 → (c == b) = false := fun b hb => beq_false_of_ne fun hcb => by
      rw [hcb] at hlo
      omega
    simp [isBlank, hne]

theorem isBlank_eq_false_of_mem_renderProgram {ws : List Word} {c : Char} (h : c ∈ renderProgram ws) :
    isBlank c = false := by
  induction ws with
  | nil => exact absurd h List.not_mem_nil
  | cons v ws ih =>
    cases ws with
    | nil => exact isBlank_eq_false_of_mem_renderWord h
    | cons w ws =>
      obtain h | h | h := (List.mem_append.1 h).imp_right List.mem_cons.1
      · exact isBlank_eq_false_of_mem_renderWord h
      · exact h ▸ rfl
      · exact ih h

theorem renderProgram_ne_nil {ws : List Word} (h : ws ≠ []) : renderProgram ws ≠ [] := by
  match ws with
  | [] => exact absurd rfl h
  | [w] => exact renderWord_ne_nil w
  | v :: w :: ws => simp

theorem dropWhile_isBlank_append {l text : List Char} (hl : l.all isBlank = true) (htext : text ≠ [])
    (hclean : ∀ c ∈ text, isBlank c = false) (r : List Char) : (l ++ (text ++ r)).dropWhile isBlank = text ++ r := by
  rw [List.dropWhile_append_of_pos (List.all_eq_true.1 hl)]
  cases text with
  | nil => exact absurd rfl htext
  | cons c cs => exact List.dropWhile_cons_of_neg (by simp [hclean c List.mem_cons_self])

/-- A text that holds no whitespace is what is left of it with whitespace around it. -/
theorem trimText_of_surrounded {l text r : List Char} (hl : l.all isBlank = true) (hr : r.all isBlank = true)
    (htext : text ≠ []) (hclean : ∀ c ∈ text, isBlank c = false) : trimText (l ++ text ++ r) = text := by
  have hback : (r.reverse ++ (text.reverse ++ [])).dropWhile isBlank = text.reverse ++ [] :=
    dropWhile_isBlank_append (by simpa using hr) (by simpa using htext) (by simpa using hclean) []
  rw [List.append_nil] at hback
  rw [trimText, List.append_assoc, dropWhile_isBlank_append hl htext hclean, List.reverse_append, hback,
    List.reverse_reverse]

/-- Settles O52: trimming leaves the program text, its tokens are the texts of the words, and each token reads back as
its word. -/
theorem programTextReadsBack : Obligations.ProgramTextReadsBack := by
  intro ws l r hws hl hr
  have htrim : trimText (l ++ renderProgram ws ++ r) = renderProgram ws :=
    trimText_of_surrounded hl hr (renderProgram_ne_nil hws) fun _ => isBlank_eq_false_of_mem_renderProgram
  rw [parseProgram, htrim, splitCommas_renderProgram hws, tokenWords_map_renderWord]

end Sys2Proof.Machine

/-! SUPPORT. One operand: when it resolves and to what (spec/40_fetch_dispatch.md rules R83, R84). -/

namespace Sys2Proof.Machine

theorem checkAddr_of_neg {a : Word} (h : a.toInt < 0) : checkAddr a = .error ⟨.invalidAddress, a⟩ := if_pos h

theorem checkAddr_of_nonneg {a : Word} (h : 0 ≤ a.toInt) : checkAddr a = .ok a.toNat := if_neg (Int.not_lt.2 h)

/-- Settles O19: a read that names an address is a checked read of memory there. -/
theorem readOperandsResolveThroughTheirMode : Obligations.ReadOperandsResolveThroughTheirMode := by
  intro s raw
  exact ⟨fun h => memRead_of_nonneg h s, fun h => memRead_of_neg h s, rfl, fun h => memRead_of_nonneg h s,
    fun h => memRead_of_neg h s⟩

/-- Settles O20: a write operand is the check of the address it names. -/
theorem writeOperandsNameTheirAddress : Obligations.WriteOperandsNameTheirAddress := by
  intro s raw
  exact ⟨checkAddr_of_nonneg, checkAddr_of_neg, checkAddr_of_nonneg, checkAddr_of_neg⟩

/-- A read operand that is readable resolves to its value. -/
theorem readOp_of_readable {s : State} {a : ReadOperand} (h : readable s a = true) :
    readOp s a = .ok (readValue s a) := by
  cases a with
  | positional raw => exact memRead_of_nonneg (of_decide_eq_true h) s
  | immediate raw => rfl
  | relative raw => exact memRead_of_nonneg (of_decide_eq_true h) s

/-- A write operand that resolved is writable. -/
theorem writable_of_writeAddr_ok {s : State} {c : WriteOperand} {n : Nat} (h : writeAddr s c = .ok n) :
    writable s c = true := by
  cases c with
  | positional raw => exact decide_eq_true (checkAddr_ok h).1
  | relative raw => exact decide_eq_true (checkAddr_ok h).1

end Sys2Proof.Machine

/-! SUPPORT. The fetch, its faults in their order, and the step that follows (spec/40_fetch_dispatch.md rules R80 to R82;
spec/60_exceptions.md rule R157). -/

namespace Sys2Proof.Machine

/-- A Running machine enters the fault that its fetch raised. -/
theorem step_of_fetch_error {s : State} {r : Raise} (hs : s.status = .running) (hf : fetch s = .error r) :
    step s = .next (takeFault r s) := by
  simp only [step, hs, hf, resolve_error]

section Fetch

variable {s : State} {w : Word}

theorem fetch_of_memRead_error {r : Raise} (hw : memRead s s.pc = .error r) : fetch s = .error r := by
  simp only [fetch, hw]

theorem fetch_of_decodeWord_error {e : WordError} (hw : memRead s s.pc = .ok w) (hd : decodeWord w = .error e) :
    fetch s = .error (decodeRaise w e) := by
  simp only [fetch, hw, hd]

theorem fetch_of_fetchRaws_error {h : Header} {r : Raise} (hw : memRead s s.pc = .ok w) (hd : decodeWord w = .ok h)
    (hraws : fetchRaws s h.arity = .error r) : fetch s = .error r := by
  simp only [fetch, hw, hd, hraws]

theorem fetch_of_fetchRaws_ok {h : Header} {raws : List Word} (hw : memRead s s.pc = .ok w) (hd : decodeWord w = .ok h)
    (hraws : fetchRaws s h.arity = .ok raws) : fetch s = .ok (h.instr raws) := by
  simp only [fetch, hw, hd, hraws]

end Fetch

/-- Settles O14: the fetch decodes what it read, and a Running machine executes what it fetched. -/
theorem stepRunsTheDecodedInstruction : Obligations.StepRunsTheDecodedInstruction := by
  intro s w h raws hs hw hd hraws
  have hf := fetch_of_fetchRaws_ok hw hd hraws
  exact ⟨hf, step_of_fetch hs hf⟩

/-- The word of an address never written is no instruction word (spec/30_encoding.md rule R69). -/
theorem decodeWord_zero : decodeWord 0 = .error .illegalOpcode := by decide

/-- Settles O16, by the sign of `pc`; an address that is not listed reads as 0. -/
theorem instructionFetchIsAMemoryRead : Obligations.InstructionFetchIsAMemoryRead := by
  intro s hs
  refine ⟨fun hpc => ?_, fun hpc => ⟨memRead_of_nonneg hpc s, fun e hd => ?_, fun h raws hd hraws => ?_⟩,
    fun hpc hunlisted => ?_⟩
  · exact step_of_fetch_error hs (fetch_of_memRead_error (memRead_of_neg hpc s))
  · exact step_of_fetch_error hs (fetch_of_decodeWord_error (memRead_of_nonneg hpc s) hd)
  · exact step_of_fetch hs (fetch_of_fetchRaws_ok (memRead_of_nonneg hpc s) hd hraws)
  · have hw : memRead s s.pc = .ok 0 :=
      (memRead_of_nonneg hpc s).trans (congrArg _ (Memory.read_eq_zero_of_unlisted hunlisted))
    exact step_of_fetch_error hs (fetch_of_decodeWord_error hw decodeWord_zero)

/-- The operand fetch completes where none of its addresses is negative. -/
theorem fetchRaws_of_nonneg {s : State} {n : Nat} (h : ∀ j, 1 ≤ j → j ≤ n → 0 ≤ (rawAddr s j).toInt) :
    ∃ raws, fetchRaws s n = .ok raws := by
  induction n with
  | zero => exact ⟨[], rfl⟩
  | succ n ih =>
    obtain ⟨raws, hraws⟩ := ih fun j hj hjn => h j hj (by omega)
    have hlast := memRead_of_nonneg (h (n + 1) (by omega) le_rfl) s
    exact ⟨raws ++ [s.mem.read (rawAddr s (n + 1)).toNat], by simp only [fetchRaws, hraws, hlast]⟩

/-- The operand fetch raises InvalidAddress of the first of its addresses that is negative. -/
theorem fetchRaws_of_first_neg {s : State} {i n : Nat} (hi : 1 ≤ i) (hin : i ≤ n)
    (hbefore : ∀ j, 1 ≤ j → j < i → 0 ≤ (rawAddr s j).toInt) (hneg : (rawAddr s i).toInt < 0) :
    fetchRaws s n = .error ⟨.invalidAddress, rawAddr s i⟩ := by
  induction n with
  | zero => omega
  | succ n ih =>
    rcases Nat.le_or_eq_of_le_succ hin with hle | rfl
    · simp only [fetchRaws, ih hle]
    · obtain ⟨raws, hraws⟩ := fetchRaws_of_nonneg (n := n) fun j hj hjn => hbefore j hj (by omega)
      simp only [fetchRaws, hraws, memRead_of_neg hneg]

/-- Settles O17: a decoding error ends the fetch before its operand words, and they are read from the lowest up. -/
theorem fetchFaultsComeInOrder : Obligations.FetchFaultsComeInOrder := by
  intro s hs hpc
  have hw := memRead_of_nonneg hpc s
  refine ⟨fun hd => ?_, fun hd => ?_, fun h i hd hi hin hbefore hneg => ?_⟩
  · exact step_of_fetch_error hs (fetch_of_decodeWord_error hw hd)
  · exact step_of_fetch_error hs (fetch_of_decodeWord_error hw hd)
  · exact step_of_fetch_error hs (fetch_of_fetchRaws_error hw hd (fetchRaws_of_first_neg hi hin hbefore hneg))

end Sys2Proof.Machine

/-! SUPPORT. The waits (spec/40_fetch_dispatch.md rule R88, spec/42_io.md rule R119): a waiting machine has no transition
of its own, and every other Running machine has one. -/

namespace Sys2Proof.Machine

theorem fire_step_eq_none {s : State} (h : condition s ≠ .run) : fire .step s = none := if_neg h

/-- The step of a machine that runs is enabled, with the traffic read off its instruction. -/
theorem fire_step_of_run {s : State} (h : condition s = .run) :
    ∃ t, step s = .next t ∧ fire .step s = some (t, stepTraffic s) := by
  have hs : s.status = .running := status_eq_running_of_condition (by simp [h]) (by simp [h])
  obtain ⟨t, ht⟩ := (stepAnswersExactlyWhileRunning s).1 hs
  exact ⟨t, ht, by simp only [fire, h, ht, if_true]⟩

theorem outCanPush_eq_false_of_full {s : State} {n : Nat} (hcap : s.outCapacity = .bounded n) (hn : n ≤ s.outq.length) :
    outCanPush s = false := by
  simpa [outCanPush, hcap, hasRoom] using hn

/-- Settles O26: the operand resolves, so the answer turns on the room alone. -/
theorem outputWithoutRoomWaits : Obligations.OutputWithoutRoomWaits := by
  intro a s n ha hcap hn
  have hv := readOp_of_readable ha
  have hfull := outCanPush_eq_false_of_full hcap hn
  refine ⟨by simp [exec, execOutput, hv, hfull, stall], fun hs hf => ?_⟩
  have hout : outputValue s = some (readValue s a) := outputValue_eq_some_iff.2 ⟨a, hf, hv⟩
  have hwait : condition s = .waitOut := condition_eq_waitOut_iff.2 ⟨hs, by simp [hout], hfull⟩
  exact ⟨hwait, fire_step_eq_none (by simp [hwait])⟩

/-- Settles O41: the two waits are the cases of the condition that need an `input` or an `output` at `pc`, and what is
left of the Running states is RUN. -/
theorem onlyInputAndOutputWait : Obligations.OnlyInputAndOutputWait := by
  intro s
  refine ⟨fun h => ?_, fun h => ?_, fun hs hin hout => ?_⟩
  · obtain ⟨-, htarget, hq, hopen⟩ := condition_eq_waitIn_iff.1 h
    obtain ⟨n, hn⟩ := Option.isSome_iff_exists.1 htarget
    obtain ⟨a, hf, ha⟩ := inputTarget_eq_some_iff.1 hn
    exact ⟨fire_step_eq_none (by simp [h]), hq, hopen, a, hf, writable_of_writeAddr_ok ha⟩
  · obtain ⟨-, hvalue, hfull⟩ := condition_eq_waitOut_iff.1 h
    obtain ⟨v, hv⟩ := Option.isSome_iff_exists.1 hvalue
    obtain ⟨a, hf, ha⟩ := outputValue_eq_some_iff.1 hv
    exact ⟨fire_step_eq_none (by simp [h]), hfull, a, hf, (readOp_ok ha).1⟩
  · have hrun : condition s = .run := condition_eq_run_of_not_waiting hs
      (fun h => hin (condition_eq_waitIn_iff.2 ⟨hs, h⟩)) fun h => hout (condition_eq_waitOut_iff.2 ⟨hs, h⟩)
    obtain ⟨t, -, ht⟩ := fire_step_of_run hrun
    exact ⟨t, stepTraffic s, ht⟩

end Sys2Proof.Machine

/-! SUPPORT. What a step depends on (spec/40_fetch_dispatch.md rule R80, last sentence): two states that agree on it
change alike. -/

namespace Sys2Proof.Machine

/-- `s'` agrees with `s` on what rule R80 lists. -/
structure SameView (s s' : State) : Prop where
  pc : s'.pc = s.pc
  rb : s'.rb = s.rb
  mem : s'.mem = s.mem
  status : s'.status = s.status
  head : s'.inq.head? = s.inq.head?
  inClosed : s'.inClosed = s.inClosed
  room : outCanPush s' = outCanPush s

/-- The changes from `s` to `t` and from `s'` to `t'` agree: on the registers and memory, on the fault where one was
entered, on how many values left `inq` and on which values joined `outq`. -/
structure SameChange (s s' t t' : State) : Prop where
  pc : t'.pc = t.pc
  rb : t'.rb = t.rb
  mem : t'.mem = t.mem
  status : t'.status = t.status
  fault : t.status = .faulted → t'.cause = t.cause ∧ t'.faultInfo = t.faultInfo
  inq : ∃ k, t.inq = s.inq.drop k ∧ t'.inq = s'.inq.drop k
  outq : ∃ e, t.outq = s.outq ++ e ∧ t'.outq = s'.outq ++ e

/-- No change, of two Running states that agree. -/
theorem SameView.sameChange {s s' : State} (h : SameView s s') (hs : s.status = .running) : SameChange s s' s s' where
  pc := h.pc
  rb := h.rb
  mem := h.mem
  status := h.status
  fault := by simp [hs]
  inq := ⟨0, rfl, rfl⟩
  outq := ⟨[], by simp⟩

/-! ### The operations on the state keep the agreement -/

section Operations

variable {s s' t t' : State} (h : SameChange s s' t t')
include h

theorem SameChange.takeFault (r : Raise) : SameChange s s' (takeFault r t) (takeFault r t') :=
  { h with status := rfl, fault := fun _ => ⟨rfl, rfl⟩ }

theorem SameChange.enterHalted : SameChange s s' (enterHalted t) (enterHalted t') :=
  { h with status := rfl, fault := nofun }

theorem SameChange.advance (n : Nat) : SameChange s s' (advance n t) (advance n t') :=
  { h with pc := by simp [nextPc, h.pc] }

theorem SameChange.jumpTo (target : Word) : SameChange s s' (jumpTo target t) (jumpTo target t') :=
  { h with pc := rfl }

theorem SameChange.adjustRb (v : Word) : SameChange s s' (adjustRb v t) (adjustRb v t') :=
  { h with rb := by simp [h.rb] }

theorem SameChange.storeWord (n : Nat) (v : Word) : SameChange s s' (storeWord n v t) (storeWord n v t') :=
  { h with mem := by simp [h.mem] }

theorem SameChange.inPop : SameChange s s' (inPop t) (inPop t') where
  __ := h
  inq := by
    obtain ⟨k, ht, ht'⟩ := h.inq
    exact ⟨k + 1, by simp [ht], by simp [ht']⟩

theorem SameChange.outPush (v : Word) : SameChange s s' (outPush v t) (outPush v t') where
  __ := h
  outq := by
    obtain ⟨e, ht, ht'⟩ := h.outq
    exact ⟨e ++ [v], by simp [ht], by simp [ht']⟩

end Operations

/-! ### The instructions -/

/-- Two outcomes that are next states, reached from `s` and `s'` by changes that agree. -/
def SameAnswer (s s' : State) (o o' : Host.Outcome State Fault Refusal) : Prop :=
  ∃ t t', o = .next t ∧ o' = .next t' ∧ SameChange s s' t t'

theorem SameChange.sameAnswer {s s' t t' : State} (h : SameChange s s' t t') : SameAnswer s s' (.next t) (.next t') :=
  ⟨t, t', rfl, rfl, h⟩

section Instructions

variable {s s' : State} (h : SameView s s') (hs : s.status = .running)
include h hs

/-- A value resolved alike is a fault entered alike, or is gone on with alike. -/
theorem SameView.sameAnswer_resolve {α : Type} (e : Except Raise α) {k k' : α → Host.Outcome State Fault Refusal}
    (hk : ∀ v, SameAnswer s s' (k v) (k' v)) : SameAnswer s s' (resolve e s k) (resolve e s' k') := by
  cases e with
  | error r => exact ((h.sameChange hs).takeFault r).sameAnswer
  | ok v => exact hk v

theorem SameView.sameAnswer_resolve_readOp (a : ReadOperand) {k k' : Word → Host.Outcome State Fault Refusal}
    (hk : ∀ v, SameAnswer s s' (k v) (k' v)) :
    SameAnswer s s' (resolve (readOp s a) s k) (resolve (readOp s' a) s' k') := by
  rw [readOp_congr h.rb h.mem]
  exact h.sameAnswer_resolve hs _ hk

theorem SameView.sameAnswer_resolve_writeAddr (c : WriteOperand) {k k' : Nat → Host.Outcome State Fault Refusal}
    (hk : ∀ n, SameAnswer s s' (k n) (k' n)) :
    SameAnswer s s' (resolve (writeAddr s c) s k) (resolve (writeAddr s' c) s' k') := by
  rw [writeAddr_congr h.rb]
  exact h.sameAnswer_resolve hs _ hk

theorem SameView.sameAnswer_storeBinary (f : Word → Word → Word) (a b : ReadOperand) (c : WriteOperand) :
    SameAnswer s s' (storeBinary f a b c s) (storeBinary f a b c s') :=
  h.sameAnswer_resolve_readOp hs a fun va =>
  h.sameAnswer_resolve_readOp hs b fun vb =>
  h.sameAnswer_resolve_writeAddr hs c fun n =>
    (((h.sameChange hs).storeWord n (f va vb)).advance 3).sameAnswer

theorem SameView.sameAnswer_jumpWhen (taken : Word → Bool) (a b : ReadOperand) :
    SameAnswer s s' (jumpWhen taken a b s) (jumpWhen taken a b s') :=
  h.sameAnswer_resolve_readOp hs a fun va => by
    cases taken va with
    | true => exact h.sameAnswer_resolve_readOp hs b fun target => ((h.sameChange hs).jumpTo target).sameAnswer
    | false => exact ((h.sameChange hs).advance 2).sameAnswer

/-- `input` looks at the head of `inq`, and where there is none at `in_closed`. -/
theorem SameView.sameAnswer_execInput (a : WriteOperand) : SameAnswer s s' (execInput a s) (execInput a s') :=
  h.sameAnswer_resolve_writeAddr hs a fun n => by
    rw [inHead, inHead, h.head, h.inClosed]
    cases s.inq.head? with
    | none =>
      cases s.inClosed with
      | true => exact ((h.sameChange hs).takeFault ⟨.inputClosed, 0⟩).sameAnswer
      | false => exact (h.sameChange hs).sameAnswer
    | some v => exact (((h.sameChange hs).inPop.storeWord n v).advance 1).sameAnswer

/-- `output` looks at the room in `outq`. -/
theorem SameView.sameAnswer_execOutput (a : ReadOperand) : SameAnswer s s' (execOutput a s) (execOutput a s') :=
  h.sameAnswer_resolve_readOp hs a fun v => by
    rw [h.room]
    cases outCanPush s with
    | true => exact (((h.sameChange hs).outPush v).advance 1).sameAnswer
    | false => exact (h.sameChange hs).sameAnswer

theorem SameView.sameAnswer_execAdjustRelativeBase (a : ReadOperand) :
    SameAnswer s s' (execAdjustRelativeBase a s) (execAdjustRelativeBase a s') :=
  h.sameAnswer_resolve_readOp hs a fun v => (((h.sameChange hs).adjustRb v).advance 1).sameAnswer

theorem SameView.sameAnswer_exec (i : Instr) : SameAnswer s s' (exec i s) (exec i s') := by
  cases i with
  | add a b c => exact h.sameAnswer_storeBinary hs wrapAdd a b c
  | mul a b c => exact h.sameAnswer_storeBinary hs wrapMul a b c
  | input a => exact h.sameAnswer_execInput hs a
  | output a => exact h.sameAnswer_execOutput hs a
  | jumpIfTrue a b => exact h.sameAnswer_jumpWhen hs isNonZero a b
  | jumpIfFalse a b => exact h.sameAnswer_jumpWhen hs (fun v => !isNonZero v) a b
  | lessThan a b c => exact h.sameAnswer_storeBinary hs lessThanWord a b c
  | equals a b c => exact h.sameAnswer_storeBinary hs equalsWord a b c
  | adjustRelativeBase a => exact h.sameAnswer_execAdjustRelativeBase hs a
  | halt => exact (h.sameChange hs).enterHalted.sameAnswer

theorem SameView.sameAnswer_step : SameAnswer s s' (step s) (step s') := by
  simp only [step, h.status, hs, fetch_congr h.pc h.mem]
  exact h.sameAnswer_resolve hs _ fun i => h.sameAnswer_exec hs i

end Instructions

/-- Settles O45: fetch and operands look at `pc`, `rb` and memory, the waits at the rest of what is listed, and every
operation on the state changes two states that agree alike. -/
theorem aStepDependsOnlyOnTheListedState : Obligations.AStepDependsOnlyOnTheListedState := by
  intro s s' t hpc hrb hmem hstatus hhead hclosed hroom hstep
  have hview : SameView s s' := ⟨hpc, hrb, hmem, hstatus, hhead, hclosed, hroom⟩
  obtain ⟨u, t', hu, ht', hsame⟩ := hview.sameAnswer_step (step_cases hstep).1
  cases hstep.symm.trans hu
  exact ⟨t', ht', hsame.pc, hsame.rb, hsame.mem, hsame.status, hsame.fault, hsame.inq, hsame.outq⟩

end Sys2Proof.Machine

/-! SUPPORT. A move as a transition of a network, and who holds the end of the channel that it needs
(spec/60_exceptions.md rule R166). -/

namespace Sys2Proof.Machine

/-! ### What a step does to the inbound channel -/

theorem step_keeps_inClosed_inCapacity {s t : State} (h : step s = .next t) :
    t.inClosed = s.inClosed ∧ t.inCapacity = s.inCapacity := by
  obtain ⟨-, ⟨r, -, rfl⟩ | ⟨i, -, he⟩⟩ := step_raises_or_effect h
  · exact ⟨rfl, rfl⟩
  · cases he <;> exact ⟨rfl, rfl⟩

/-- A step at which no `input` with a target stands consumes nothing. -/
theorem step_inq_of_inputTarget_none {s t : State} (h : step s = .next t) (hin : inputTarget s = none) :
    t.inq = s.inq := by
  obtain ⟨-, ⟨r, -, rfl⟩ | ⟨i, hf, he⟩⟩ := step_raises_or_effect h
  · rfl
  cases he with
  | take v hi hn =>
    have hsome := inputTarget_eq_some_iff.2 ⟨_, hi ▸ hf, hn⟩
    cases hin.symm.trans hsome
  | _ => rfl

/-- An `input` whose target resolves consumes the head of `inq`, where there is one. -/
theorem step_inq_of_inputTarget_some {s t : State} {n : Nat} (h : step s = .next t) (hin : inputTarget s = some n) :
    t.inq = s.inq.tail := by
  obtain ⟨a, hf, ha⟩ := inputTarget_eq_some_iff.1 hin
  have hexec : execInput a s = .next t := (step_of_fetch (step_cases h).1 hf).symm.trans h
  rcases execInput_cases a s with ⟨r, hr, -⟩ | ⟨-, -, hq, -, he⟩ | ⟨-, -, hq, -, he⟩ | ⟨m, v, rest, -, -, he⟩
  · cases ha.symm.trans hr
  · cases hexec.symm.trans he
    simp [hq]
  · cases hexec.symm.trans he
    simp [hq]
  · cases hexec.symm.trans he
    rfl

/-- The traffic of a step names the values that left `inq`. -/
theorem stepTraffic_consumed_append {s t : State} (h : step s = .next t) : (stepTraffic s).consumed ++ t.inq = s.inq := by
  cases hin : inputTarget s with
  | none => simp [stepTraffic, hin, step_inq_of_inputTarget_none h hin]
  | some n => simp [stepTraffic, hin, step_inq_of_inputTarget_some h hin, ← List.drop_one]

theorem fire_step_eq_some {s t : State} {y : Traffic} (h : fire .step s = some (t, y)) :
    step s = .next t ∧ y = stepTraffic s := by
  have hrun : condition s = .run := by
    by_contra hne
    simp [fire_step_eq_none hne] at h
  obtain ⟨u, hstep, hfire⟩ := fire_step_of_run hrun
  cases hfire.symm.trans h
  exact ⟨hstep, rfl⟩

/-! ### The ends of the channels -/

section Ends

variable {net : Network} {k : Nat} {m : Move} {s t : State} {y : Traffic}

theorem Network.feeder_eq_none (h : net.wired) : net.feeder k = none ↔ ∀ i, (⟨i, k⟩ : Wire) ∉ net.wires := by
  simp only [Option.eq_none_iff_forall_ne_some, ne_eq, Network.feeder_eq_some h]

theorem Network.feeds_eq_false : net.feeds k = false ↔ ∀ j, (⟨k, j⟩ : Wire) ∉ net.wires := by
  rw [← Bool.not_eq_true, Network.feeds_eq_true, not_exists]

/-- At a wired inbound channel an allowed move takes what it consumes from the head, and leaves the rest as it was. -/
theorem fire_keeps_fed_inbound (ha : net.allows k m = true) (hfed : (net.feeder k).isSome = true)
    (h : fire m s = some (t, y)) :
    t.inq = s.inq.drop y.consumed.length ∧ t.inClosed = s.inClosed ∧ t.inCapacity = s.inCapacity := by
  cases m with
  | step =>
    obtain ⟨hstep, rfl⟩ := fire_step_eq_some h
    refine ⟨?_, step_keeps_inClosed_inCapacity hstep⟩
    rw [← stepTraffic_consumed_append hstep, List.drop_left]
  | send v => simp [Option.isNone_iff_eq_none.1 ha] at hfed
  | closeIn => simp [Option.isNone_iff_eq_none.1 ha] at hfed
  | recv =>
    obtain ⟨⟨v, u⟩, hrecv, he⟩ := Option.map_eq_some_iff.1 h
    cases he
    obtain ⟨rest, -, rfl⟩ := hostRecv_eq_some hrecv
    exact ⟨rfl, rfl, rfl⟩
  | recvDirect =>
    obtain ⟨⟨v, u⟩, hdirect, he⟩ := Option.map_eq_some_iff.1 h
    cases he
    obtain ⟨-, -, rfl⟩ := hostRecvDirect_eq_some hdirect
    exact ⟨rfl, rfl, rfl⟩

theorem fireNet_move_of_not_allowed (ha : net.allows k m = false) : fireNet (.move k m) net = none := by
  cases hk : net.machine k <;> simp [fireNet, hk, ha]

/-- An allowed move of one machine is a transition of the network, with the same effect and the same traffic. -/
theorem fireNet_move_of_allowed (hwired : net.wired) (hk : net.machine k = some s) (ha : net.allows k m = true)
    (h : fire m s = some (t, y)) :
    ∃ net', fireNet (.move k m) net = some (net', [(k, y)]) ∧ net'.machine k = some t :=
  ⟨net.store k t y.consumed.length, by simp [fireNet, hk, ha, h],
    Network.machine_store_self hwired hk fun hfed => fire_keeps_fed_inbound ha hfed h⟩

end Ends

/-- Settles O58: a move of the network is one that the ends allow, and an allowed one leaves a wired inbound channel but
for what it consumes. -/
theorem theHostHoldsExactlyTheUnwiredEnds : Obligations.TheHostHoldsExactlyTheUnwiredEnds := by
  intro net k s hwired hk
  refine ⟨fun i hik => ?_, fun j hkj => ?_, fun m t y hfire hends => fireNet_move_of_allowed hwired hk ?_ hfire⟩
  · have hfed : (net.feeder k).isNone = false := by simp [(Network.feeder_eq_some hwired).2 hik]
    exact ⟨fun v => fireNet_move_of_not_allowed hfed, fireNet_move_of_not_allowed hfed⟩
  · have hfeeds : (!net.feeds k) = false := by simp [Network.feeds_eq_true.2 ⟨j, hkj⟩]
    exact ⟨fireNet_move_of_not_allowed hfeeds, fireNet_move_of_not_allowed hfeeds⟩
  · rcases hends with rfl | ⟨hm, hin⟩ | ⟨hm, hout⟩
    · rfl
    · have hunfed : (net.feeder k).isNone = true := by simp [(Network.feeder_eq_none hwired).2 hin]
      rcases hm with ⟨v, rfl⟩ | rfl <;> exact hunfed
    · have hunfeeding : (!net.feeds k) = true := by simp [Network.feeds_eq_false.2 hout]
      rcases hm with rfl | rfl <;> exact hunfeeding

end Sys2Proof.Machine

/-! SUPPORT. Arithmetic (spec/41_arithmetic.md): the sum and the product as the 64-bit adder and multiplier, and the rule
of format F3 for every instruction that stores a function of two read operands. -/

namespace Sys2Proof.Machine

theorem wrapAdd_eq_add (x y : Word) : wrapAdd x y = x + y := by
  rw [wrapAdd, wrap64_add, wrap64_toInt_self, wrap64_toInt_self]

theorem wrapMul_eq_mul (x y : Word) : wrapMul x y = x * y := by
  rw [wrapMul, wrap64_mul, wrap64_toInt_self, wrap64_toInt_self]

/-- Settles O2: the sum and the product are those of bit vectors, which obey the ring laws modulo 2^64. -/
theorem wrappedArithmeticObeysTheRingLaws : Obligations.WrappedArithmeticObeysTheRingLaws := by
  intro x y z
  simp only [wrapAdd_eq_add, wrapMul_eq_mul]
  exact ⟨BitVec.add_comm x y, BitVec.mul_comm x y, BitVec.add_assoc x y z, BitVec.mul_assoc x y z, BitVec.mul_add⟩

/-! ### Operands that do not resolve, and write operands that do -/

section Operands

variable {s : State} {a b : ReadOperand} {c : WriteOperand}

/-- A read operand that is not readable names the address that is the detail of its fault. -/
theorem readOp_of_not_readable (h : readable s a = false) :
    ∃ x, readAddress s a = some x ∧ readOp s a = .error ⟨.invalidAddress, x⟩ := by
  cases a with
  | positional raw => exact ⟨raw, rfl, memRead_of_neg (Int.not_le.1 (of_decide_eq_false h)) s⟩
  | immediate raw => cases h
  | relative raw => exact ⟨relativeAddr s raw, rfl, memRead_of_neg (Int.not_le.1 (of_decide_eq_false h)) s⟩

/-- A write operand is the check of the address it names. -/
theorem writeAddr_eq_checkAddr (s : State) (c : WriteOperand) : writeAddr s c = checkAddr (writeAddress s c) := by
  cases c <;> rfl

theorem writeAddr_of_writable (h : writable s c = true) : writeAddr s c = .ok (writeAddress s c).toNat := by
  rw [writeAddr_eq_checkAddr]
  exact checkAddr_of_nonneg (of_decide_eq_true h)

theorem writeAddr_of_not_writable (h : writable s c = false) :
    writeAddr s c = .error ⟨.invalidAddress, writeAddress s c⟩ := by
  rw [writeAddr_eq_checkAddr]
  exact checkAddr_of_neg (Int.not_le.1 (of_decide_eq_false h))

/-! ### Format F3 -/

variable (f : Word → Word → Word)

theorem storeBinary_of_resolved (ha : readable s a = true) (hb : readable s b = true) (hc : writable s c = true) :
    storeBinary f a b c s =
      .next (advance 3 (storeWord (writeAddress s c).toNat (f (readValue s a) (readValue s b)) s)) := by
  simp [storeBinary, readOp_of_readable ha, readOp_of_readable hb, writeAddr_of_writable hc]

theorem storeBinary_of_first_unreadable (b : ReadOperand) (c : WriteOperand) (ha : readable s a = false) :
    ∃ x, readAddress s a = some x ∧ storeBinary f a b c s = .next (takeFault ⟨.invalidAddress, x⟩ s) := by
  obtain ⟨x, hx, hread⟩ := readOp_of_not_readable ha
  exact ⟨x, hx, by simp [storeBinary, hread]⟩

theorem storeBinary_of_second_unreadable (c : WriteOperand) (ha : readable s a = true) (hb : readable s b = false) :
    ∃ x, readAddress s b = some x ∧ storeBinary f a b c s = .next (takeFault ⟨.invalidAddress, x⟩ s) := by
  obtain ⟨x, hx, hread⟩ := readOp_of_not_readable hb
  exact ⟨x, hx, by simp [storeBinary, readOp_of_readable ha, hread]⟩

theorem storeBinary_of_unwritable (ha : readable s a = true) (hb : readable s b = true) (hc : writable s c = false) :
    storeBinary f a b c s = .next (takeFault ⟨.invalidAddress, writeAddress s c⟩ s) := by
  simp [storeBinary, readOp_of_readable ha, readOp_of_readable hb, writeAddr_of_not_writable hc]

end Operands

/-- An instruction that is encoded with its opcode and executed by `storeBinary f` obeys the rule of format F3 for `f`. -/
theorem binaryRule_of_storeBinary {mk : ReadOperand → ReadOperand → WriteOperand → Instr} {opcode : Nat}
    {f : Word → Word → Word}
    (hencode : ∀ a b c, encode (mk a b c) =
      [BitVec.ofNat 64 (headerDigits opcode a.mode.toDigit b.mode.toDigit c.mode.toDigit), a.raw, b.raw, c.raw])
    (hexec : ∀ a b c s, exec (mk a b c) s = storeBinary f a b c s) : BinaryRule mk opcode f := by
  intro a b c s
  rw [hexec]
  refine ⟨hencode a b c, fun ha hb hc => ?_, storeBinary_of_first_unreadable f b c, storeBinary_of_second_unreadable f c,
    storeBinary_of_unwritable f⟩
  have hpc : nextPc 3 s = wrap64 (s.pc.toInt + 4) := congrArg wrap64 (Int.add_assoc s.pc.toInt 3 1)
  rw [storeBinary_of_resolved f ha hb hc, ← hpc]
  rfl

/-- Settles O21: `add` is executed as the format F3 instruction of the wrapped sum. -/
theorem addStoresTheWrappedSum : Obligations.AddStoresTheWrappedSum :=
  binaryRule_of_storeBinary (fun _ _ _ => rfl) fun _ _ _ _ => rfl

/-- Settles O22: `mul` is executed as the format F3 instruction of the wrapped product. -/
theorem mulStoresTheWrappedProduct : Obligations.MulStoresTheWrappedProduct :=
  binaryRule_of_storeBinary (fun _ _ _ => rfl) fun _ _ _ _ => rfl

end Sys2Proof.Machine

/-! SUPPORT. What a step emits, and what a run of machine and host carries over the two channels (spec/42_io.md rules
R112, R113, R115). -/

namespace Sys2Proof.Machine

/-! ### What a step does to the outbound channel -/

theorem outputValue_eq_none {s : State} (h : ∀ a, fetch s ≠ .ok (.output a)) : outputValue s = none := by
  rw [Option.eq_none_iff_forall_ne_some]
  intro v hv
  obtain ⟨a, hf, -⟩ := outputValue_eq_some_iff.1 hv
  exact h a hf

/-- A machine that runs at an `output` whose operand resolves has room. -/
theorem outCanPush_of_run {s : State} (hrun : condition s = .run) (hout : (outputValue s).isSome = true) :
    outCanPush s = true := by
  have hs : s.status = .running := status_eq_running_of_condition (by simp [hrun]) (by simp [hrun])
  by_contra hfull
  have hwait : condition s = .waitOut := condition_eq_waitOut_iff.2 ⟨hs, hout, Bool.not_eq_true _ ▸ hfull⟩
  simp [hrun] at hwait

/-- Executing anything but `output` leaves the outbound queue and its log. -/
theorem exec_keeps_outq {i : Instr} {s t : State} (hi : ∀ a, i ≠ .output a) (h : exec i s = .next t) :
    t.outq = s.outq ∧ t.outLog = s.outLog := by
  rcases exec_cases h with ⟨r, -, rfl⟩ | he
  · exact ⟨rfl, rfl⟩
  cases he with
  | emit ha hroom => exact absurd ha (hi _)
  | _ => exact ⟨rfl, rfl⟩

/-- The traffic of an enabled step names the values that joined `outq` and `out_log`. -/
theorem step_outq_of_run {s t : State} (hrun : condition s = .run) (h : step s = .next t) :
    t.outq = s.outq ++ (stepTraffic s).emitted ∧ t.outLog = s.outLog ++ (stepTraffic s).emitted := by
  obtain ⟨-, ⟨r, hr, rfl⟩ | ⟨i, hf, he⟩⟩ := step_cases h
  · simp [stepTraffic, outputValue, hr]
  by_cases hi : ∃ a, i = .output a
  · obtain ⟨a, rfl⟩ := hi
    rcases execOutput_cases a s with ⟨r, hr, he'⟩ | ⟨v, hv, hfull, -⟩ | ⟨v, hv, -, he'⟩
    · cases he.symm.trans he'
      simp [stepTraffic, outputValue, hf, hr]
    · simp [outCanPush_of_run hrun (by simp [outputValue, hf, hv])] at hfull
    · cases he.symm.trans he'
      simp [stepTraffic, outputValue, hf, hv]
  · rw [not_exists] at hi
    have hnone : outputValue s = none := outputValue_eq_none fun a ha => hi a (Except.ok.inj (hf.symm.trans ha))
    simpa [stepTraffic, hnone] using exec_keeps_outq hi he

/-! ### What a move carries -/

theorem run_of_fire_step {s t : State} {x : Traffic} (h : fire .step s = some (t, x)) : condition s = .run := by
  by_contra hne
  simp [fire_step_eq_none hne] at h

/-- What a move at `s` can lead to, with the values it carries. -/
inductive Carries (s : State) : Move → State → Traffic → Prop where
  /-- The machine takes its enabled step. -/
  | step {t : State} (hrun : condition s = .run) (hstep : step s = .next t) : Carries s .step t (stepTraffic s)
  /-- The host's value joins the inbound queue. -/
  | send (v : Word) : Carries s (.send v) { s with inq := s.inq ++ [v] } { Traffic.nothing with sent := [v] }
  /-- The host closes the inbound channel. -/
  | closeIn : Carries s .closeIn { s with inClosed := true } Traffic.nothing
  /-- The host takes the head of the outbound queue. -/
  | recv {v : Word} {rest : List Word} (hq : s.outq = v :: rest) :
      Carries s .recv { s with outq := rest } { Traffic.nothing with received := [v] }
  /-- The host takes the value that `output` emits over an unbuffered channel. -/
  | recvDirect (v : Word) (hcap : s.outCapacity = .bounded 0) :
      Carries s .recvDirect (advance 1 { s with outLog := s.outLog ++ [v] })
        { Traffic.nothing with emitted := [v], received := [v] }

section Moves

variable {m : Move} {s t : State} {x : Traffic}

theorem carries_of_fire (h : fire m s = some (t, x)) : Carries s m t x := by
  cases m with
  | step =>
    obtain ⟨hstep, rfl⟩ := fire_step_eq_some h
    exact .step (run_of_fire_step h) hstep
  | send v =>
    obtain ⟨u, hsend, he⟩ := Option.map_eq_some_iff.1 h
    cases he
    obtain ⟨-, rfl⟩ := hostSend_eq_some hsend
    exact .send v
  | closeIn =>
    cases h
    exact .closeIn
  | recv =>
    obtain ⟨⟨v, u⟩, hrecv, he⟩ := Option.map_eq_some_iff.1 h
    cases he
    obtain ⟨rest, hq, rfl⟩ := hostRecv_eq_some hrecv
    exact .recv hq
  | recvDirect =>
    obtain ⟨⟨v, u⟩, hdirect, he⟩ := Option.map_eq_some_iff.1 h
    cases he
    obtain ⟨hcap, -, rfl⟩ := hostRecvDirect_eq_some hdirect
    exact .recvDirect v hcap

/-- What a move consumes was first in `inq`, and what it sends is last. -/
theorem Carries.inq (h : Carries s m t x) : x.consumed ++ t.inq = s.inq ++ x.sent := by
  cases h with
  | step hrun hstep => simpa [stepTraffic] using stepTraffic_consumed_append hstep
  | send v => rfl
  | closeIn => simp [Traffic.nothing]
  | recv hq => simp [Traffic.nothing]
  | recvDirect v hcap => simp [Traffic.nothing]

/-- What a move emits joins `outq` and its log, and what the host receives was first in `outq`; a direct receive passes
over an empty queue. -/
theorem Carries.outq (h : Carries s m t x) (hempty : m = .recvDirect → s.outq = []) :
    x.received ++ t.outq = s.outq ++ x.emitted ∧ t.outLog = s.outLog ++ x.emitted := by
  cases h with
  | step hrun hstep => simpa [stepTraffic] using step_outq_of_run hrun hstep
  | send v => simp [Traffic.nothing]
  | closeIn => simp [Traffic.nothing]
  | recv hq => simp [Traffic.nothing, hq]
  | recvDirect v hcap => simp [hempty rfl]

/-- A direct receive needs an unbuffered channel, whose queue is empty. -/
theorem Carries.outq_eq_nil (h : Carries s m t x) (hs : MachineInv s) (hm : m = .recvDirect) : s.outq = [] := by
  subst hm
  cases h with
  | recvDirect v hcap => exact hs.outq_eq_nil hcap

end Moves

/-! ### What a run carries -/

/-- One FIFO before, between and after two transitions: what leaves its head and what joins its end add up. -/
theorem fifo_trans {q₀ q₁ q₂ out₁ out₂ in₁ in₂ : List Word} (h₁ : out₁ ++ q₁ = q₀ ++ in₁)
    (h₂ : out₂ ++ q₂ = q₁ ++ in₂) : (out₁ ++ out₂) ++ q₂ = q₀ ++ (in₁ ++ in₂) := by
  rw [List.append_assoc, h₂, ← List.append_assoc, h₁, List.append_assoc]

theorem fireAll_cons_eq_some {m : Move} {ms : List Move} {s u : State} {z : Traffic}
    (h : fireAll (m :: ms) s = some (u, z)) :
    ∃ t x y, fire m s = some (t, x) ∧ fireAll ms t = some (u, y) ∧ z = x.followedBy y := by
  rw [fireAll] at h
  split at h
  next => cases h
  next t x hm =>
    split at h
    next => cases h
    next v y hms =>
      cases h
      exact ⟨t, x, y, hm, hms, rfl⟩

/-- Settles O46, by induction on the moves: each keeps the invariant and both channels' order. -/
theorem bothChannelsAreFifo : Obligations.BothChannelsAreFifo := by
  intro ms
  induction ms with
  | nil =>
    rintro s t x - h
    cases h
    simp [Traffic.nothing]
  | cons m ms ih =>
    intro s u z hs h
    obtain ⟨t, x, y, hm, hms, rfl⟩ := fireAll_cons_eq_some h
    obtain ⟨hin, hout, hlog⟩ := ih t u y (everyMoveKeepsTheInvariant m s t x hs hm) hms
    have hcarries := carries_of_fire hm
    obtain ⟨hout₁, hlog₁⟩ := hcarries.outq (hcarries.outq_eq_nil hs)
    refine ⟨fifo_trans hcarries.inq hin, fifo_trans hout₁ hout, ?_⟩
    rw [hlog, hlog₁, List.append_assoc]
    rfl

end Sys2Proof.Machine

/-! SUPPORT. `input` and `output` (spec/42_io.md rules R110, R111, R116): their outcomes in terms of the operand and the
channel. -/

namespace Sys2Proof.Machine

theorem nextPc_one (s : State) : nextPc 1 s = wrap64 (s.pc.toInt + 2) :=
  congrArg wrap64 (Int.add_assoc s.pc.toInt 1 1)

/-! ### `input` -/

section Input

variable {s : State} {a : WriteOperand} (ha : writable s a = true)

theorem execInput_of_not_writable (h : writable s a = false) :
    execInput a s = .next (takeFault ⟨.invalidAddress, writeAddress s a⟩ s) := by
  simp [execInput, writeAddr_of_not_writable h]

include ha

theorem execInput_of_value {v : Word} {rest : List Word} (hq : s.inq = v :: rest) :
    execInput a s = .next { s with
      inq := rest
      mem := s.mem.write (writeAddress s a).toNat v
      pc := wrap64 (s.pc.toInt + 2) } := by
  have hexec : execInput a s = .next (advance 1 (storeWord (writeAddress s a).toNat v (inPop s))) := by
    simp [execInput, writeAddr_of_writable ha, inHead, hq]
  rw [hexec, advance, nextPc_one, inPop, hq]
  rfl

theorem execInput_of_closed (hq : s.inq = []) (hc : s.inClosed = true) :
    execInput a s = .next (takeFault ⟨.inputClosed, 0⟩ s) := by
  simp [execInput, writeAddr_of_writable ha, inHead, hq, hc]

theorem execInput_of_open (hq : s.inq = []) (hc : s.inClosed = false) : execInput a s = .next s := by
  simp [execInput, writeAddr_of_writable ha, inHead, hq, hc, stall]

/-- The target of the `input` at `pc`. -/
theorem inputTarget_of_fetch (hf : fetch s = .ok (.input a)) :
    inputTarget s = some (writeAddress s a).toNat :=
  inputTarget_eq_some_iff.2 ⟨a, hf, writeAddr_of_writable ha⟩

theorem condition_eq_waitIn_of_fetch (hs : s.status = .running) (hf : fetch s = .ok (.input a)) (hq : s.inq = [])
    (hc : s.inClosed = false) : condition s = .waitIn :=
  condition_eq_waitIn_iff.2 ⟨hs, by simp [inputTarget_of_fetch ha hf], hq, hc⟩

end Input

/-- Settles O23: the value is at the head of the queue, so `input` stores it and advances. -/
theorem inputStoresTheOldestValue : Obligations.InputStoresTheOldestValue :=
  fun _ _ _ _ => ⟨rfl, fun ha hq => execInput_of_value ha hq⟩

/-- Settles O24: the target is checked first, then the queue is looked at, then whether the channel is closed. -/
theorem inputWithNothingToStore : Obligations.InputWithNothingToStore := by
  intro a s
  refine ⟨execInput_of_not_writable, execInput_of_closed, execInput_of_open, fun hs hf ha hq hc => ?_⟩
  have hwait := condition_eq_waitIn_of_fetch ha hs hf hq hc
  exact ⟨hwait, fire_step_eq_none (by simp [hwait])⟩

/-! ### `output` -/

section Output

variable {s : State} {a : ReadOperand}

theorem execOutput_of_not_readable (h : readable s a = false) :
    ∃ x, readAddress s a = some x ∧ execOutput a s = .next (takeFault ⟨.invalidAddress, x⟩ s) := by
  obtain ⟨x, hx, hread⟩ := readOp_of_not_readable h
  exact ⟨x, hx, by simp [execOutput, hread]⟩

theorem execOutput_of_room (ha : readable s a = true) (hroom : outCanPush s = true) :
    execOutput a s = .next { s with
      outq := s.outq ++ [readValue s a]
      outLog := s.outLog ++ [readValue s a]
      pc := wrap64 (s.pc.toInt + 2) } := by
  have hexec : execOutput a s = .next (advance 1 (outPush (readValue s a) s)) := by
    simp [execOutput, readOp_of_readable ha, hroom]
  rw [hexec, advance, nextPc_one]
  rfl

theorem outCanPush_of_room (h : ∀ n, s.outCapacity = .bounded n → s.outq.length < n) : outCanPush s = true := by
  cases hcap : s.outCapacity with
  | unbounded => simp [outCanPush, hcap, hasRoom]
  | bounded n => simpa [outCanPush, hcap, hasRoom] using h n hcap

/-- The value of the `output` at `pc`. -/
theorem outputValue_of_fetch (ha : readable s a = true) (hf : fetch s = .ok (.output a)) :
    outputValue s = some (readValue s a) :=
  outputValue_eq_some_iff.2 ⟨a, hf, readOp_of_readable ha⟩

theorem hostRecvDirect_of_value {v : Word} (hs : s.status = .running) (hcap : s.outCapacity = .bounded 0)
    (hv : outputValue s = some v) :
    hostRecvDirect s = some (v, { s with outLog := s.outLog ++ [v], pc := wrap64 (s.pc.toInt + 2) }) := by
  have hrecv : hostRecvDirect s = some (v, advance 1 { s with outLog := s.outLog ++ [v] }) := by
    simp [hostRecvDirect, hs, hcap, hv]
  rw [hrecv, advance, nextPc_one]

theorem hostRecvDirect_of_no_value (h : outputValue s = none) : hostRecvDirect s = none := by
  simp [hostRecvDirect, h]

end Output

/-- Settles O25: the operand is resolved first, then the room is looked at. -/
theorem outputEmitsItsOperand : Obligations.OutputEmitsItsOperand :=
  fun _ _ => ⟨rfl, fun ha hroom => execOutput_of_room ha (outCanPush_of_room hroom), execOutput_of_not_readable⟩

/-- Settles O50: a channel of capacity 0 never has room, so `output` waits (O26) for the direct receive, unless its
operand faults. -/
theorem unbufferedOutputIsOneJointTransition : Obligations.UnbufferedOutputIsOneJointTransition := by
  intro a s hs hcap hf
  refine ⟨fun ha => ?_, fun ha => ?_⟩
  · obtain ⟨-, hwait⟩ := outputWithoutRoomWaits a s 0 ha hcap (Nat.zero_le _)
    exact ⟨(hwait hs hf).2, hostRecvDirect_of_value hs hcap (outputValue_of_fetch ha hf)⟩
  · obtain ⟨x, hx, hexec⟩ := execOutput_of_not_readable ha
    obtain ⟨y, -, hread⟩ := readOp_of_not_readable ha
    exact ⟨hostRecvDirect_of_no_value (by simp [outputValue, hf, hread]), x, hx, (step_of_fetch hs hf).trans hexec⟩

end Sys2Proof.Machine

/-! SUPPORT. The capacities of the channels (spec/42_io.md rule R116): a step does with other capacities what it does, but
where room decides whether `output` waits. -/

namespace Sys2Proof.Machine

/-- `s` with other channel capacities. -/
def withCapacities (d c : Capacity) (s : State) : State := { s with inCapacity := d, outCapacity := c }

/-- An outcome with `f` applied to its next state. -/
def mapNext (f : State → State) : Host.Outcome State Fault Refusal → Host.Outcome State Fault Refusal
  | .next s => .next (f s)
  | .fault r => .fault r
  | .refused r => .refused r

section Capacities

variable {d c : Capacity} {s : State}

theorem fetch_withCapacities : fetch (withCapacities d c s) = fetch s := fetch_congr rfl rfl

@[simp] theorem readOp_withCapacities (a : ReadOperand) : readOp (withCapacities d c s) a = readOp s a :=
  readOp_congr rfl rfl a

@[simp] theorem writeAddr_withCapacities (a : WriteOperand) : writeAddr (withCapacities d c s) a = writeAddr s a :=
  writeAddr_congr rfl a

/-- Fault entry does not look at the capacities, so what is gone on with decides. -/
theorem resolve_withCapacities {α : Type} {e : Except Raise α} {k k' : α → Host.Outcome State Fault Refusal}
    (hk : ∀ v, e = .ok v → k' v = mapNext (withCapacities d c) (k v)) :
    resolve e (withCapacities d c s) k' = mapNext (withCapacities d c) (resolve e s k) := by
  cases e with
  | error r => rfl
  | ok v => exact hk v rfl

theorem storeBinary_withCapacities (f : Word → Word → Word) (a b : ReadOperand) (t : WriteOperand) :
    storeBinary f a b t (withCapacities d c s) = mapNext (withCapacities d c) (storeBinary f a b t s) := by
  simp only [storeBinary, readOp_withCapacities, writeAddr_withCapacities]
  exact resolve_withCapacities fun va _ => resolve_withCapacities fun vb _ => resolve_withCapacities fun n _ => rfl

theorem jumpWhen_withCapacities (taken : Word → Bool) (a b : ReadOperand) :
    jumpWhen taken a b (withCapacities d c s) = mapNext (withCapacities d c) (jumpWhen taken a b s) := by
  simp only [jumpWhen, readOp_withCapacities]
  refine resolve_withCapacities fun va _ => ?_
  cases taken va with
  | true => exact resolve_withCapacities fun target _ => rfl
  | false => rfl

theorem execInput_withCapacities (a : WriteOperand) :
    execInput a (withCapacities d c s) = mapNext (withCapacities d c) (execInput a s) := by
  simp only [execInput, writeAddr_withCapacities]
  refine resolve_withCapacities fun n _ => ?_
  have hhead : inHead (withCapacities d c s) = inHead s := rfl
  have hclosed : (withCapacities d c s).inClosed = s.inClosed := rfl
  rw [hhead, hclosed]
  cases inHead s with
  | some v => rfl
  | none => cases s.inClosed <;> rfl

/-- Only the room that an `output` with a value looks at depends on the capacities. -/
theorem execOutput_withCapacities {a : ReadOperand}
    (hroom : ∀ v, readOp s a = .ok v → outCanPush (withCapacities d c s) = outCanPush s) :
    execOutput a (withCapacities d c s) = mapNext (withCapacities d c) (execOutput a s) := by
  simp only [execOutput, readOp_withCapacities]
  refine resolve_withCapacities fun v hv => ?_
  rw [hroom v hv]
  cases outCanPush s <;> rfl

theorem execAdjustRelativeBase_withCapacities (a : ReadOperand) :
    execAdjustRelativeBase a (withCapacities d c s) = mapNext (withCapacities d c) (execAdjustRelativeBase a s) := by
  simp only [execAdjustRelativeBase, readOp_withCapacities]
  exact resolve_withCapacities fun v _ => rfl

theorem exec_withCapacities {i : Instr}
    (hroom : ∀ a v, i = .output a → readOp s a = .ok v → outCanPush (withCapacities d c s) = outCanPush s) :
    exec i (withCapacities d c s) = mapNext (withCapacities d c) (exec i s) := by
  cases i with
  | add a b t => exact storeBinary_withCapacities wrapAdd a b t
  | mul a b t => exact storeBinary_withCapacities wrapMul a b t
  | input a => exact execInput_withCapacities a
  | output a => exact execOutput_withCapacities fun v => hroom a v rfl
  | jumpIfTrue a b => exact jumpWhen_withCapacities isNonZero a b
  | jumpIfFalse a b => exact jumpWhen_withCapacities (fun v => !isNonZero v) a b
  | lessThan a b t => exact storeBinary_withCapacities lessThanWord a b t
  | equals a b t => exact storeBinary_withCapacities equalsWord a b t
  | adjustRelativeBase a => exact execAdjustRelativeBase_withCapacities a
  | halt => rfl

theorem step_withCapacities (hs : s.status = .running)
    (hroom : (outputValue s).isSome = true → outCanPush (withCapacities d c s) = outCanPush s) :
    step (withCapacities d c s) = mapNext (withCapacities d c) (step s) := by
  have hs' : (withCapacities d c s).status = .running := hs
  simp only [step, hs, hs', fetch_withCapacities]
  refine resolve_withCapacities fun i hf => exec_withCapacities ?_
  rintro a v rfl hv
  exact hroom (by simp [outputValue, hf, hv])

end Capacities

/-- Settles O49: both machines run, so at an `output` with a value both have room. -/
theorem capacitiesNeverChangeWhatAStepDoes : Obligations.CapacitiesNeverChangeWhatAStepDoes := by
  intro s t c d hrun hrun' hstep
  have hroom : (outputValue s).isSome = true → outCanPush (withCapacities d c s) = outCanPush s := by
    intro hout
    have hsame : outputValue { s with outCapacity := c } = outputValue s := outputValue_congr rfl rfl rfl
    calc outCanPush (withCapacities d c s) = outCanPush { s with outCapacity := c } := rfl
      _ = true := outCanPush_of_run hrun' (hsame ▸ hout)
      _ = outCanPush s := (outCanPush_of_run hrun hout).symm
  have hmap := step_withCapacities (step_cases hstep).1 hroom
  rwa [hstep] at hmap

end Sys2Proof.Machine

/-! SUPPORT. The two ends of a connection, and the joint transition of an unbuffered one (spec/42_io.md rule R116,
spec/60_exceptions.md rule R166). -/

namespace Sys2Proof.Machine

/-! ### One FIFO -/

theorem Network.source_ne_sink {net : Network} {i j : Nat} (hwired : net.wired) (hij : (⟨i, j⟩ : Wire) ∈ net.wires) :
    i ≠ j := (hwired.1 _ hij).2.2

/-- The inbound channel of a machine that `i` feeds is the outbound channel of `i`. -/
theorem Network.inbound_of_wire {net : Network} {i j : Nat} {a b : State} (hwired : net.wired)
    (hij : (⟨i, j⟩ : Wire) ∈ net.wires) (ha : net.machine i = some a) (hb : net.machine j = some b) :
    b.inq = a.outq ∧ b.inClosed = a.outClosed ∧ b.inCapacity = a.outCapacity := by
  have hfj := (Network.feeder_eq_some hwired).2 hij
  obtain ⟨a₀, b₀, ha₀, -, rfl⟩ := (Network.machine_eq_some_iff_of_fed hfj).1 hb
  cases hfi : net.feeder i with
  | none =>
    rw [Network.machine_of_unfed hfi, ha₀] at ha
    cases ha
    exact ⟨rfl, rfl, rfl⟩
  | some k =>
    obtain ⟨c, a₁, -, ha₁, rfl⟩ := (Network.machine_eq_some_iff_of_fed hfi).1 ha
    cases ha₀.symm.trans ha₁
    exact ⟨rfl, rfl, rfl⟩

/-- Every machine of a network with a legal wiring has a complete state. -/
theorem Network.exists_machine {net : Network} (hwired : net.wired) {j : Nat} (hj : j < net.machines.length) :
    ∃ b, net.machine j = some b := by
  cases hf : net.feeder j with
  | none => exact ⟨_, (Network.machine_of_unfed hf).trans (List.getElem?_eq_getElem hj)⟩
  | some i =>
    have hi : i < net.machines.length := (hwired.1 _ ((Network.feeder_eq_some hwired).1 hf)).1
    exact ⟨_, (Network.machine_eq_some_iff_of_fed hf).2
      ⟨_, _, List.getElem?_eq_getElem hi, List.getElem?_eq_getElem hj, rfl⟩⟩

/-- The outbound channel of `t` is that of `s`. -/
structure SameOutbound (s t : State) : Prop where
  outq : t.outq = s.outq
  outClosed : t.outClosed = s.outClosed
  outCapacity : t.outCapacity = s.outCapacity

/-- Another machine than the one that moved, where that one's outbound channel is as it was: at most it has lost the
values consumed. -/
theorem Network.machine_store_other_of_sameOutbound {net : Network} {k l : Nat} {s t u : State} (hwired : net.wired)
    (hlk : l ≠ k) (hk : net.machine k = some s) (hl : net.machine l = some u) (hst : SameOutbound s t) (n : Nat) :
    (net.store k t n).machine l =
      some { u with outq := if net.feeder k = some l then u.outq.drop n else u.outq } := by
  rw [Network.machine_store_other hwired hlk hk hl]
  by_cases hkl : net.feeder l = some k
  · obtain ⟨huq, huclosed, hucap⟩ := Network.inbound_of_wire hwired ((Network.feeder_eq_some hwired).1 hkl) hk hl
    simp only [hkl, if_true, hst.outq, hst.outClosed, hst.outCapacity, ← huq, ← huclosed, ← hucap]
  · simp only [hkl, if_false]

/-! ### Transitions that leave both ends as they were -/

/-- Both channels of `t` are those of `s`. -/
structure SameEnds (s t : State) : Prop extends SameOutbound s t where
  inq : t.inq = s.inq
  inClosed : t.inClosed = s.inClosed
  inCapacity : t.inCapacity = s.inCapacity

/-- A machine that moved and left its channels changes no other. -/
theorem Network.machine_store_of_sameEnds {net : Network} {k l : Nat} {s t u : State} (hwired : net.wired)
    (hk : net.machine k = some s) (hst : SameEnds s t) (hl : net.machine l = some u) :
    (net.store k t 0).machine l = some (if l = k then t else u) := by
  by_cases hlk : l = k
  · subst hlk
    rw [if_pos rfl]
    exact Network.machine_store_self hwired hk fun _ => ⟨hst.inq, hst.inClosed, hst.inCapacity⟩
  · rw [if_neg hlk, Network.machine_store_other_of_sameOutbound hwired hlk hk hl hst.toSameOutbound]
    simp only [List.drop_zero, ite_self]

/-- The machines after two of them have moved and left their channels. -/
theorem Network.machine_store_store_of_sameEnds {net : Network} {i j l : Nat} {a a' b b' u : State} (hwired : net.wired)
    (hij : i ≠ j) (ha : net.machine i = some a) (hb : net.machine j = some b) (haa : SameEnds a a')
    (hbb : SameEnds b b') (hl : net.machine l = some u) :
    ((net.store i a' 0).store j b' 0).machine l = some (if l = j then b' else if l = i then a' else u) := by
  have hj := Network.machine_store_of_sameEnds hwired ha haa hb
  rw [if_neg hij.symm] at hj
  exact Network.machine_store_of_sameEnds (Network.wired_store hwired _ _ _) hj hbb
    (Network.machine_store_of_sameEnds hwired ha haa hl)

/-- The value of a direct receive passes no queue. -/
theorem sameEnds_of_hostRecvDirect {v : Word} {a a' : State} (h : hostRecvDirect a = some (v, a')) : SameEnds a a' := by
  obtain ⟨-, -, rfl⟩ := hostRecvDirect_eq_some h
  exact ⟨⟨rfl, rfl, rfl⟩, rfl, rfl, rfl⟩

/-- A machine that waits for input stores the value that is brought to it; its queue stays empty. -/
theorem receiveDirect_of_waitIn {b : State} {n : Nat} (h : condition b = .waitIn) (hn : inputTarget b = some n)
    (v : Word) : receiveDirect v b = some (advance 1 (storeWord n v b)) := by
  obtain ⟨hs, -, hq, -⟩ := condition_eq_waitIn_iff.1 h
  obtain ⟨t, hf, ht⟩ := inputTarget_eq_some_iff.1 hn
  have hf' : fetch { b with inq := [v] } = .ok (.input t) :=
    (fetch_congr (s := b) (t := { b with inq := [v] }) rfl rfl).trans hf
  have ht' : writeAddr { b with inq := [v] } t = .ok n := (writeAddr_congr (s := b) rfl t).trans ht
  have hpop : inPop { b with inq := [v] } = b := by
    rw [inPop, List.tail_cons, ← hq]
  have hstep : step { b with inq := [v] } = .next (advance 1 (storeWord n v b)) :=
    calc step { b with inq := [v] } = execInput t { b with inq := [v] } :=
        step_of_fetch (s := { b with inq := [v] }) hs hf'
      _ = .next (advance 1 (storeWord n v (inPop { b with inq := [v] }))) := by simp [execInput, ht', inHead]
      _ = .next (advance 1 (storeWord n v b)) := by rw [hpop]
  simp only [receiveDirect, h, hstep, if_true]

theorem receiveDirect_eq_some {v : Word} {b b' : State} (h : receiveDirect v b = some b') :
    condition b = .waitIn ∧ ∃ n, b' = advance 1 (storeWord n v b) := by
  have hwait : condition b = .waitIn := by
    by_contra hne
    simp [receiveDirect, hne] at h
  obtain ⟨-, hin, -, -⟩ := condition_eq_waitIn_iff.1 hwait
  obtain ⟨n, hn⟩ := Option.isSome_iff_exists.1 hin
  cases h.symm.trans (receiveDirect_of_waitIn hwait hn v)
  exact ⟨hwait, n, rfl⟩

theorem sameEnds_of_receiveDirect {v : Word} {b b' : State} (h : receiveDirect v b = some b') : SameEnds b b' := by
  obtain ⟨-, n, rfl⟩ := receiveDirect_eq_some h
  exact ⟨⟨rfl, rfl, rfl⟩, rfl, rfl, rfl⟩

/-! ### The transitions over a connection -/

theorem fireNet_move_of_not_fired {net : Network} {k : Nat} {m : Move} {s : State} (hk : net.machine k = some s)
    (h : fire m s = none) : fireNet (.move k m) net = none := by
  simp [fireNet, hk, h]

theorem fireNet_move_of_fired {net : Network} {k : Nat} {m : Move} {s t : State} {y : Traffic}
    (hk : net.machine k = some s) (hallow : net.allows k m = true) (h : fire m s = some (t, y)) :
    fireNet (.move k m) net = some (net.store k t y.consumed.length, [(k, y)]) := by
  simp [fireNet, hk, hallow, h]

theorem fireNet_transfer {net : Network} {i j : Nat} {a a' b b' : State} {v : Word}
    (hij : (⟨i, j⟩ : Wire) ∈ net.wires) (ha : net.machine i = some a) (hb : net.machine j = some b)
    (hsend : hostRecvDirect a = some (v, a')) (hrecv : receiveDirect v b = some b') :
    fireNet (.transfer i j) net = some ((net.store i a' 0).store j b' 0,
      [(i, { Traffic.nothing with emitted := [v] }), (j, { Traffic.nothing with consumed := [v] })]) := by
  simp [fireNet, hij, ha, hb, hsend, hrecv]

/-- Settles O57: `output` waits for room (O50) and `input` for a value (O24), and the joint transition leaves the
channels of both machines. -/
theorem unbufferedWireIsOneJointTransition : Obligations.UnbufferedWireIsOneJointTransition := by
  intro net i j a b r t hwired hij ha hb hcap hq hclosed has haf hread hbs hbf hwrite
  obtain ⟨hbq, hbclosed, -⟩ := Network.inbound_of_wire hwired hij ha hb
  obtain ⟨haStep, hsend⟩ := (unbufferedOutputIsOneJointTransition r a has hcap haf).1 hread
  have hwait := condition_eq_waitIn_of_fetch hwrite hbs hbf (hbq.trans hq) (hbclosed.trans hclosed)
  have hrecv := receiveDirect_of_waitIn hwait (inputTarget_of_fetch hwrite hbf) (readValue a r)
  have hne := Network.source_ne_sink hwired hij
  have hmachine := fun l u => Network.machine_store_store_of_sameEnds (l := l) (u := u) hwired hne ha hb
    (sameEnds_of_hostRecvDirect hsend) (sameEnds_of_receiveDirect hrecv)
  refine ⟨fireNet_move_of_not_fired ha haStep, fireNet_move_of_not_fired hb (fire_step_eq_none (by simp [hwait])), _, _,
    fireNet_transfer hij ha hb hsend hrecv, ?_, ?_⟩
  · rw [hmachine i a ha, if_neg hne, if_pos rfl]
  · rw [hmachine j b hb, if_pos rfl, advance, nextPc_one]
    rfl

/-- Settles O56: the `input` of B sees A's queue and A's closing as its own channel, so its step is enabled, and what it
consumes leaves A's queue. -/
theorem anEndedFeederLeavesItsQueueThenClosed : Obligations.AnEndedFeederLeavesItsQueueThenClosed := by
  intro net i j a b t hwired hij ha hb hclosed hbs hbf hwrite
  obtain ⟨hbq, hbclosed, -⟩ := Network.inbound_of_wire hwired hij ha hb
  have hne := Network.source_ne_sink hwired hij
  have htarget := inputTarget_of_fetch hwrite hbf
  have hrun : condition b = .run :=
    condition_eq_run_of_inputTarget hbs (by simp [htarget]) fun _ => hbclosed.trans hclosed
  obtain ⟨b', hstep, hfire⟩ := fire_step_of_run hrun
  have hexec : execInput t b = .next b' := (step_of_fetch hbs hbf).symm.trans hstep
  refine ⟨fun v rest hq => ?_, fun hq => ?_⟩
  · have hfj : net.feeder j = some i := (Network.feeder_eq_some hwired).2 hij
    have hconsumed : (stepTraffic b).consumed.length = 1 := by simp [stepTraffic, htarget, hbq, hq]
    have hj := Network.machine_store_self hwired hb fun hfed => fire_keeps_fed_inbound (m := .step) rfl hfed hfire
    have hb' := Host.Outcome.next.inj (hexec.symm.trans (execInput_of_value hwrite (hbq.trans hq)))
    have hout : SameOutbound b b' := by
      subst hb'
      exact ⟨rfl, rfl, rfl⟩
    refine ⟨_, _, fireNet_move_of_fired hb rfl hfire, hj.trans (congrArg some hb'), ?_⟩
    rw [Network.machine_store_other_of_sameOutbound hwired hne hb ha hout, if_pos hfj, hconsumed, hq]
    rfl
  · obtain ⟨net', hnet, hj⟩ := fireNet_move_of_allowed hwired hb rfl hfire
    cases hexec.symm.trans (execInput_of_closed hwrite (hbq.trans hq) (hbclosed.trans hclosed))
    exact ⟨net', _, hnet, hj⟩

end Sys2Proof.Machine

/-! SUPPORT. What a run of a network carries over a connection (spec/60_exceptions.md rule R166). -/

namespace Sys2Proof.Machine

/-! ### The traffic of a network -/

@[simp] theorem consumedBy_nil (j : Nat) : consumedBy j [] = [] := rfl

@[simp] theorem emittedBy_nil (i : Nat) : emittedBy i [] = [] := rfl

@[simp] theorem consumedBy_cons (j k : Nat) (y : Traffic) (x : NetTraffic) :
    consumedBy j ((k, y) :: x) = (if k = j then y.consumed else []) ++ consumedBy j x := rfl

@[simp] theorem emittedBy_cons (i k : Nat) (y : Traffic) (x : NetTraffic) :
    emittedBy i ((k, y) :: x) = (if k = i then y.emitted else []) ++ emittedBy i x := rfl

theorem consumedBy_append (j : Nat) (x y : NetTraffic) : consumedBy j (x ++ y) = consumedBy j x ++ consumedBy j y :=
  List.flatMap_append

theorem emittedBy_append (i : Nat) (x y : NetTraffic) : emittedBy i (x ++ y) = emittedBy i x ++ emittedBy i y :=
  List.flatMap_append

/-! ### What a move does to a connected end -/

section Moves

variable {net : Network} {k : Nat} {m : Move} {s t : State} {y : Traffic}

/-- What a move consumes is a beginning of the inbound queue. -/
theorem Carries.consumed_append_drop (h : Carries s m t y) : y.consumed ++ s.inq.drop y.consumed.length = s.inq := by
  rw [← List.prefix_iff_eq_append]
  cases h with
  | step hrun hstep => exact ⟨t.inq, stepTraffic_consumed_append hstep⟩
  | _ => exact List.nil_prefix

/-- The host takes nothing from an outbound channel that is wired, so the queue grows by what is emitted. -/
theorem Carries.outq_of_feeding (h : Carries s m t y) (hallow : net.allows k m = true) (hfeeds : net.feeds k = true) :
    t.outq = s.outq ++ y.emitted ∧ t.outLog = s.outLog ++ y.emitted := by
  cases h with
  | step hrun hstep => exact step_outq_of_run hrun hstep
  | send v => simp [Traffic.nothing]
  | closeIn => simp [Traffic.nothing]
  | recv hq => simp [Network.allows, hfeeds] at hallow
  | recvDirect v hcap => simp [Network.allows, hfeeds] at hallow

end Moves

/-! ### What a transition carries over a connection -/

/-- The traffic `x` accounts for the change from `a` to `a'` of the FIFO that machine `i` feeds and machine `j` reads. -/
structure Delivers (i j : Nat) (x : NetTraffic) (a a' : State) : Prop where
  outq : consumedBy j x ++ a'.outq = a.outq ++ emittedBy i x
  outLog : a'.outLog = a.outLog ++ emittedBy i x

theorem Delivers.refl (i j : Nat) (a : State) : Delivers i j [] a a := ⟨by simp, by simp⟩

theorem Delivers.trans {i j : Nat} {x y : NetTraffic} {a a' a'' : State} (h : Delivers i j x a a')
    (h' : Delivers i j y a' a'') : Delivers i j (x ++ y) a a'' where
  outq := by
    rw [consumedBy_append, emittedBy_append]
    exact fifo_trans h.outq h'.outq
  outLog := by rw [h'.outLog, h.outLog, emittedBy_append, List.append_assoc]

section Connection

variable {net : Network} {i j : Nat} {a : State} (hwired : net.wired) (hij : (⟨i, j⟩ : Wire) ∈ net.wires)
  (ha : net.machine i = some a)
include hwired hij ha

/-- A move of one machine: the feeder's emits, the reader's consumes, and any other's leaves the FIFO. -/
theorem delivers_of_move {k : Nat} {m : Move} {s t : State} {y : Traffic} (hk : net.machine k = some s)
    (hallow : net.allows k m = true) (hfire : fire m s = some (t, y)) :
    ∃ a', (net.store k t y.consumed.length).machine i = some a' ∧ Delivers i j [(k, y)] a a' := by
  have hne := Network.source_ne_sink hwired hij
  have hcarries := carries_of_fire hfire
  by_cases hki : k = i
  · subst hki
    cases ha.symm.trans hk
    obtain ⟨hout, hlog⟩ := hcarries.outq_of_feeding hallow (Network.feeds_eq_true.2 ⟨j, hij⟩)
    exact ⟨t, Network.machine_store_self hwired hk fun hfed => fire_keeps_fed_inbound hallow hfed hfire,
      by simpa [hne] using hout, by simpa using hlog⟩
  refine ⟨_, Network.machine_store_other hwired (Ne.symm hki) hk ha, ?_, by simp [hki]⟩
  by_cases hkj : k = j
  · subst hkj
    obtain ⟨hq, -, -⟩ := Network.inbound_of_wire hwired hij ha hk
    simpa [hki, (Network.feeder_eq_some hwired).2 hij, hq] using hcarries.consumed_append_drop
  · have hfk : net.feeder k ≠ some i := fun hf => hkj <|
      congrArg Wire.sink (Network.wire_unique hwired ((Network.feeder_eq_some hwired).1 hf) hij (.inl rfl))
    simp [hki, hkj, hfk]

/-- A joint transition: over this connection it passes an empty queue, over another it leaves the FIFO. -/
theorem delivers_of_transfer {k l : Nat} {s s' u u' : State} {v : Word} (hkl : (⟨k, l⟩ : Wire) ∈ net.wires)
    (hk : net.machine k = some s) (hl : net.machine l = some u) (hsend : hostRecvDirect s = some (v, s'))
    (hrecv : receiveDirect v u = some u') :
    ∃ a', ((net.store k s' 0).store l u' 0).machine i = some a' ∧
      Delivers i j [(k, { Traffic.nothing with emitted := [v] }), (l, { Traffic.nothing with consumed := [v] })] a a' := by
  have hne := Network.source_ne_sink hwired hkl
  refine ⟨_, Network.machine_store_store_of_sameEnds hwired hne hk hl (sameEnds_of_hostRecvDirect hsend)
    (sameEnds_of_receiveDirect hrecv) ha, ?_⟩
  obtain ⟨hwait, n, rfl⟩ := receiveDirect_eq_some hrecv
  obtain ⟨-, -, rfl⟩ := hostRecvDirect_eq_some hsend
  by_cases hki : k = i
  · cases Network.wire_unique hwired hkl hij (.inl hki)
    cases ha.symm.trans hk
    obtain ⟨-, -, hq, -⟩ := condition_eq_waitIn_iff.1 hwait
    have hempty : a.outq = [] := (Network.inbound_of_wire hwired hij ha hl).1.symm.trans hq
    constructor <;> simp [hne, hempty, Traffic.nothing]
  · have hlj : l ≠ j := fun hlj => hki (congrArg Wire.source (Network.wire_unique hwired hkl hij (.inr hlj)))
    by_cases hil : i = l
    · subst hil
      cases ha.symm.trans hl
      constructor <;> simp [hki, hlj, Traffic.nothing]
    · constructor <;> simp [hki, hlj, hil, Ne.symm hki, Traffic.nothing]

theorem delivers_of_fireNet {m : NetMove} {net' : Network} {x : NetTraffic} (h : fireNet m net = some (net', x)) :
    ∃ a', net'.machine i = some a' ∧ Delivers i j x a a' := by
  obtain ⟨k, v, s, t, y, rfl, hk, hallow, hfire, rfl, rfl⟩ |
    ⟨k, l, s, u, v, s', u', rfl, hkl, hk, hl, hsend, hrecv, rfl, rfl⟩ := fireNet_cases h
  · exact delivers_of_move hwired hij ha hk hallow hfire
  · exact delivers_of_transfer hwired hij ha hkl hk hl hsend hrecv

end Connection

/-! ### What a run carries over a connection -/

theorem fireNetAll_cons_eq_some {m : NetMove} {ms : List NetMove} {net net'' : Network} {z : NetTraffic}
    (h : fireNetAll (m :: ms) net = some (net'', z)) :
    ∃ net' x y, fireNet m net = some (net', x) ∧ fireNetAll ms net' = some (net'', y) ∧ z = x ++ y := by
  rw [fireNetAll] at h
  split at h
  next => cases h
  next net' x hm =>
    split at h
    next => cases h
    next v y hms =>
      cases h
      exact ⟨net', x, y, hm, hms, rfl⟩

/-- A run keeps the connections, and its traffic accounts for the FIFO of each. -/
theorem delivers_of_fireNetAll {ms : List NetMove} {net net' : Network} {x : NetTraffic} {i j : Nat} {a : State}
    (hwired : net.wired) (hij : (⟨i, j⟩ : Wire) ∈ net.wires) (ha : net.machine i = some a)
    (h : fireNetAll ms net = some (net', x)) :
    net'.wired ∧ (⟨i, j⟩ : Wire) ∈ net'.wires ∧ ∃ a', net'.machine i = some a' ∧ Delivers i j x a a' := by
  induction ms generalizing net x a with
  | nil =>
    cases h
    exact ⟨hwired, hij, a, ha, .refl i j a⟩
  | cons m ms ih =>
    obtain ⟨net₁, y, z, hm, hms, rfl⟩ := fireNetAll_cons_eq_some h
    obtain ⟨hwires, -, hkeep⟩ := fireNet_wires hm
    obtain ⟨a₁, ha₁, hfirst⟩ := delivers_of_fireNet hwired hij ha hm
    obtain ⟨hwired', hij', a', ha', hrest⟩ := ih (hkeep hwired) (hwires ▸ hij) ha₁ hms
    exact ⟨hwired', hij', a', ha', hfirst.trans hrest⟩

/-- Settles O54: before and after the run B's inbound queue is A's outbound queue, for which the traffic accounts. -/
theorem networkRunsDeliverInOrder : Obligations.NetworkRunsDeliverInOrder := by
  intro ms net net' x i j a b hwired hij ha hb h
  obtain ⟨hwired', hij', a', ha', hdelivers⟩ := delivers_of_fireNetAll hwired hij ha h
  obtain ⟨b', hb'⟩ := Network.exists_machine hwired' (hwired'.1 _ hij').2.1
  obtain ⟨hq, -, -⟩ := Network.inbound_of_wire hwired hij ha hb
  obtain ⟨hq', -, -⟩ := Network.inbound_of_wire hwired' hij' ha' hb'
  refine ⟨a', b', ha', hb', ?_, hdelivers.outLog⟩
  rw [hq, hq', hdelivers.outq]

end Sys2Proof.Machine

/-! SUPPORT. The conditional jumps (spec/43_jumps.md rules R120, R121): their outcomes in terms of the two operands, and
the fetches before and after a jump. -/

namespace Sys2Proof.Machine

theorem nextPc_two (s : State) : nextPc 2 s = wrap64 (s.pc.toInt + 3) :=
  congrArg wrap64 (Int.add_assoc s.pc.toInt 2 1)

/-! ### The outcomes of a jump -/

section Outcomes

variable {s : State} {taken : Word → Bool} {a b : ReadOperand}

theorem jumpWhen_of_taken (ha : readable s a = true) (ht : taken (readValue s a) = true) (hb : readable s b = true) :
    jumpWhen taken a b s = .next (jumpTo (readValue s b) s) := by
  simp [jumpWhen, readOp_of_readable ha, ht, readOp_of_readable hb]

/-- A jump that is not taken falls through, whether or not its target resolves (decision D13). -/
theorem jumpWhen_of_not_taken (b : ReadOperand) (ha : readable s a = true) (ht : taken (readValue s a) = false) :
    jumpWhen taken a b s = .next { s with pc := wrap64 (s.pc.toInt + 3) } := by
  have hjump : jumpWhen taken a b s = .next (advance 2 s) := by simp [jumpWhen, readOp_of_readable ha, ht]
  rw [hjump, advance, nextPc_two]

theorem jumpWhen_of_unreadable_condition (taken : Word → Bool) (b : ReadOperand) (ha : readable s a = false) :
    ∃ x, readAddress s a = some x ∧ jumpWhen taken a b s = .next (takeFault ⟨.invalidAddress, x⟩ s) := by
  obtain ⟨x, hx, hread⟩ := readOp_of_not_readable ha
  exact ⟨x, hx, by simp [jumpWhen, hread]⟩

theorem jumpWhen_of_unreadable_target (ha : readable s a = true) (ht : taken (readValue s a) = true)
    (hb : readable s b = false) :
    ∃ x, readAddress s b = some x ∧ jumpWhen taken a b s = .next (takeFault ⟨.invalidAddress, x⟩ s) := by
  obtain ⟨x, hx, hread⟩ := readOp_of_not_readable hb
  exact ⟨x, hx, by simp [jumpWhen, readOp_of_readable ha, ht, hread]⟩

end Outcomes

/-! ### The fetch of a jump, and the fetch after it -/

/-- A Running machine at the word of an instruction faults at the first raw operand word of it that has no address. -/
theorem step_of_first_raw_neg {s : State} {i : Instr} {k : Nat} (hs : s.status = .running)
    (hw : memRead s s.pc = .ok i.header.word) (hk : 1 ≤ k) (hle : k ≤ i.header.arity)
    (hbefore : ∀ j, 1 ≤ j → j < k → 0 ≤ (rawAddr s j).toInt) (hneg : (rawAddr s k).toInt < 0) :
    step s = .next (takeFault ⟨.invalidAddress, rawAddr s k⟩ s) :=
  step_of_fetch_error hs
    (fetch_of_fetchRaws_error hw (decodeWord_word i.header) (fetchRaws_of_first_neg hk hle hbefore hneg))

/-- A jump to a negative target is no fault; the next fetch is one (decision D32). -/
theorem step_jumpTo_of_neg {s : State} {target : Word} (hs : s.status = .running) (hneg : target.toInt < 0) :
    step (jumpTo target s) = .next (takeFault ⟨.invalidAddress, target⟩ (jumpTo target s)) :=
  step_of_fetch_error hs (fetch_of_memRead_error (memRead_of_neg hneg _))

/-! ### The rule -/

/-- An instruction that is encoded with its opcode and two operands and executed by `jumpWhen taken` obeys the rule of a
conditional jump that is taken where `taken` holds. -/
theorem jumpRule_of_jumpWhen {mk : ReadOperand → ReadOperand → Instr} {opcode : Nat} {taken : Word → Bool}
    {holds : Word → Prop}
    (hencode : ∀ a b, encode (mk a b) =
      [BitVec.ofNat 64 (headerDigits opcode a.mode.toDigit b.mode.toDigit 0), a.raw, b.raw])
    (hexec : ∀ a b s, exec (mk a b) s = jumpWhen taken a b s)
    (htaken : ∀ v, taken v = true ↔ holds v) : JumpRule mk opcode holds := by
  intro a b s
  have harity : (mk a b).header.arity = 2 := by simpa [hencode] using (encode_length (mk a b)).symm
  simp only [hexec, ← htaken, Bool.not_eq_true]
  refine ⟨hencode a b, jumpWhen_of_taken, jumpWhen_of_not_taken b, jumpWhen_of_unreadable_condition taken b,
    jumpWhen_of_unreadable_target, fun hs hw hfirst hsecond => ?_, fun hs ha ht hb hneg => ?_⟩
  · refine step_of_first_raw_neg hs hw (by omega) harity.ge (fun j hj hlt => ?_) hsecond
    obtain rfl : j = 1 := by omega
    exact hfirst
  · exact ⟨_, jumpWhen_of_taken ha ht hb, step_jumpTo_of_neg hs hneg⟩

/-- Settles O27: `jump-if-true` is the conditional jump taken where its condition is not 0. -/
theorem jumpIfTrueGoesWhereItsOperandSays : Obligations.JumpIfTrueGoesWhereItsOperandSays :=
  jumpRule_of_jumpWhen (fun _ _ => rfl) (fun _ _ _ => rfl) fun _ => decide_eq_true_iff

/-- Settles O28: `jump-if-false` is the conditional jump taken where its condition is 0. -/
theorem jumpIfFalseGoesWhereItsOperandSays : Obligations.JumpIfFalseGoesWhereItsOperandSays :=
  jumpRule_of_jumpWhen (fun _ _ => rfl) (fun _ _ _ => rfl) fun v => by simp [isNonZero]

end Sys2Proof.Machine

/-! SUPPORT. The comparisons (spec/44_compare.md rules R130, R131): the word that each stores, and each as the format F3
instruction of that word. -/

namespace Sys2Proof.Machine

theorem truthWord_decide (p : Prop) [Decidable p] : truthWord (decide p) = if p then 1 else 0 := by
  simp [truthWord]

/-- The comparison is that of the signed integers, with no subtraction that could overflow. -/
theorem lessThanWord_eq : lessThanWord = fun x y => if x.toInt < y.toInt then 1 else 0 :=
  funext₂ fun x y => truthWord_decide (x.toInt < y.toInt)

theorem equalsWord_eq : equalsWord = fun x y => if x = y then 1 else 0 :=
  funext₂ fun x y => truthWord_decide (x = y)

/-- Settles O29: `less-than` is executed as the format F3 instruction of the signed comparison's truth word. -/
theorem lessThanStoresZeroOrOne : Obligations.LessThanStoresZeroOrOne := by
  rw [Obligations.LessThanStoresZeroOrOne, ← lessThanWord_eq]
  exact binaryRule_of_storeBinary (fun _ _ _ => rfl) fun _ _ _ _ => rfl

/-- Settles O30: `equals` is executed as the format F3 instruction of the truth word of equal words. -/
theorem equalsStoresZeroOrOne : Obligations.EqualsStoresZeroOrOne := by
  rw [Obligations.EqualsStoresZeroOrOne, ← equalsWord_eq]
  exact binaryRule_of_storeBinary (fun _ _ _ => rfl) fun _ _ _ _ => rfl

end Sys2Proof.Machine

/-! SUPPORT. The relative base (spec/45_relbase.md rule R140): the outcomes of `adjust-relative-base` in terms of its
operand, what a relative access means, and that no other instruction writes `rb`. -/

namespace Sys2Proof.Machine

section RelativeBase

variable {s : State} {a : ReadOperand}

theorem execAdjustRelativeBase_of_readable (ha : readable s a = true) :
    execAdjustRelativeBase a s = .next { s with
      rb := wrap64 (s.rb.toInt + (readValue s a).toInt)
      pc := wrap64 (s.pc.toInt + 2) } := by
  have hexec : execAdjustRelativeBase a s = .next (advance 1 (adjustRb (readValue s a) s)) := by
    simp [execAdjustRelativeBase, readOp_of_readable ha]
  rw [hexec, advance, nextPc_one]
  rfl

theorem execAdjustRelativeBase_of_not_readable (ha : readable s a = false) :
    ∃ x, readAddress s a = some x ∧ execAdjustRelativeBase a s = .next (takeFault ⟨.invalidAddress, x⟩ s) := by
  obtain ⟨x, hx, hread⟩ := readOp_of_not_readable ha
  exact ⟨x, hx, by simp [execAdjustRelativeBase, hread]⟩

/-- The address of a relative access, with `rb` as the base and the raw operand as the offset. -/
theorem relativeAddr_eq_rb_add (s : State) (k : Word) : relativeAddr s k = wrap64 (s.rb.toInt + k.toInt) :=
  congrArg wrap64 (Int.add_comm k.toInt s.rb.toInt)

theorem readOp_relative_eq_positional (s : State) (k : Word) :
    readOp s (.relative k) = readOp s (.positional (wrap64 (s.rb.toInt + k.toInt))) :=
  congrArg (memRead s) (relativeAddr_eq_rb_add s k)

theorem writeAddr_relative_eq_positional (s : State) (k : Word) :
    writeAddr s (.relative k) = writeAddr s (.positional (wrap64 (s.rb.toInt + k.toInt))) :=
  congrArg checkAddr (relativeAddr_eq_rb_add s k)

/-- Neither a fault nor the effect of another instruction writes `rb`. -/
theorem eq_adjustRelativeBase_of_exec_rb_ne {i : Instr} {t : State} (h : exec i s = .next t) (hrb : t.rb ≠ s.rb) :
    ∃ b, i = .adjustRelativeBase b := by
  rcases exec_cases h with ⟨r, -, rfl⟩ | he
  · exact absurd rfl hrb
  cases he with
  | @adjust b v hi => exact ⟨b, hi⟩
  | _ => exact absurd rfl hrb

end RelativeBase

/-- Settles O31: the operand is resolved with the old `rb`, to which its value is added; a relative access is the
positional access at the sum of `rb` and its offset in every state, so in the one after the adjustment too. -/
theorem adjustRelativeBaseAddsItsOperand : Obligations.AdjustRelativeBaseAddsItsOperand := fun _ _ =>
  ⟨rfl,
    fun ha => ⟨_, execAdjustRelativeBase_of_readable ha, rfl, readOp_relative_eq_positional _,
      writeAddr_relative_eq_positional _⟩,
    execAdjustRelativeBase_of_not_readable,
    fun _ _ => eq_adjustRelativeBase_of_exec_rb_ne⟩

end Sys2Proof.Machine

/-! SUPPORT. The halt (spec/46_halt.md rule R145): the words that are `halt`, and the Halted state, which neither a step
nor a move of the host leaves. -/

namespace Sys2Proof.Machine

/-- `halt` has no mode digit to examine, so every digit above the tens place is ignored (spec/30_encoding.md rule R67). -/
theorem decodeWord_of_low_digits_99 {w : Word} (hw : 0 ≤ w.toInt) (hcode : w.toNat % 100 = 99) :
    decodeWord w = .ok .halt :=
  ignoredDigitsDoNotMatter.1 Header.halt.word w .halt (decodeWord_word .halt) hw hcode

theorem fetch_of_low_digits_99 {s : State} (hpc : 0 ≤ s.pc.toInt) (hw : 0 ≤ (s.mem.read s.pc.toNat).toInt)
    (hcode : (s.mem.read s.pc.toNat).toNat % 100 = 99) : fetch s = .ok .halt :=
  fetch_of_fetchRaws_ok (memRead_of_nonneg hpc s) (decodeWord_of_low_digits_99 hw hcode) rfl

theorem exec_halt (s : State) : exec .halt s = .next (enterHalted s) := rfl

theorem status_of_exec_halt {s t : State} (h : exec .halt s = .next t) : t.status = .halted := by
  cases (exec_halt s).symm.trans h
  exact enterHalted_status s

theorem step_ne_next_of_halted {s : State} (hs : s.status = .halted) (t : State) : step s ≠ .next t := fun h =>
  absurd (hs.symm.trans (step_cases h).1) (by decide)

/-- An ended run keeps all but its channels. -/
theorem status_of_fire_halted {s t : State} {m : Move} {x : Traffic} (hs : s.status = .halted)
    (h : fire m s = some (t, x)) : t.status = .halted := by
  rw [anEndedRunStaysEnded m s t x (by simp [hs]) h]
  exact hs

/-- Settles O32: the word at `pc` decodes as `halt` by its low two digits, `halt` enters Halted, and in that state a
step answers nothing and a move keeps the status. -/
theorem haltEndsTheRun : Obligations.HaltEndsTheRun := by
  refine ⟨exec_halt, fun s hs hpc hw hcode => ?_, fun s t u h => ?_, fun s t u m x h hfire => ?_⟩
  · exact (step_of_fetch hs (fetch_of_low_digits_99 hpc hw hcode)).trans (exec_halt s)
  · exact step_ne_next_of_halted (status_of_exec_halt h) u
  · exact status_of_fire_halted (status_of_exec_halt h) hfire

end Sys2Proof.Machine

/-! SUPPORT. The end of a run: a fault is precise, and the host sees how the run ended (spec/60_exceptions.md rules R158,
R159, R169). -/

namespace Sys2Proof.Machine

theorem decodeRaise_cause_ne_none (w : Word) (e : WordError) : (decodeRaise w e).cause ≠ .none := by
  cases e <;> simp [decodeRaise]

theorem StepRaises.faultEntered {s : State} {r : Raise} (h : StepRaises s r) : FaultEntered s (takeFault r s) := by
  refine ⟨rfl, ?_⟩
  cases h with
  | address hx => simp
  | word hpc hd => exact decodeRaise_cause_ne_none _ _
  | inputClosed hf hq hc => simp

/-- Settles O39: a step that ends Faulted entered one of the faults it can raise, since no effect ends Faulted. -/
theorem faultsArePrecise : Obligations.FaultsArePrecise := by
  intro s t hstep hfaulted
  obtain ⟨hs, ⟨r, hr, rfl⟩ | ⟨i, -, he⟩⟩ := step_raises_or_effect hstep
  · exact ⟨hr.faultEntered, takeFault_outClosed r s⟩
  · exact absurd hfaulted (he.status_ne_faulted hs)

/-- Settles O44: the invariant ties `cause` to Faulted and `out_closed` to the end of the run, which leaves one value of
the pair to each status. -/
theorem theHostTellsTheOutcomesApart : Obligations.TheHostTellsTheOutcomesApart := by
  intro s h
  cases hs : s.status with
  | running => simp [h.cause_eq_none, h.outClosed_eq_false, hs]
  | halted => simp [h.cause_eq_none, h.closedIffEnded.2, hs]
  | faulted => simp [h.causeIffFaulted.2, h.closedIffEnded.2, hs]

end Sys2Proof.Machine

/-! SUPPORT. What the Loader refuses (spec/70_reset_and_hazards.md rule R183). -/

namespace Sys2Proof.Machine

theorem digitsValue_eq_none_of_mem {cs : List Char} {c : Char} (hc : c ∈ cs) (hdigit : ¬ IsDigit c) (acc : Nat) :
    digitsValue acc cs = none := by
  induction cs generalizing acc with
  | nil => exact absurd hc List.not_mem_nil
  | cons d ds ih =>
    rw [digitsValue]
    split
    next hd =>
      obtain rfl | hc := List.mem_cons.1 hc
      · exact absurd hd hdigit
      · exact ih hc _
    next => rfl

theorem unsignedValue_eq_none_of_mem {cs : List Char} {c : Char} (hc : c ∈ cs) (hdigit : ¬ IsDigit c) :
    unsignedValue cs = none := by
  rw [unsignedValue_of_ne_nil (List.ne_nil_of_mem hc), digitsValue_eq_none_of_mem hc hdigit]

/-- A character of a token must be a digit or its sign. -/
theorem tokenWord_eq_none_of_mem {t : List Char} {c : Char} (hc : c ∈ t) (hminus : c ≠ '-') (hdigit : ¬ IsDigit c) :
    tokenWord t = none := by
  have hvalue : tokenValue t = none := by
    unfold tokenValue
    split
    next cs =>
      have hcs : c ∈ cs := (List.mem_cons.1 hc).resolve_left hminus
      rw [unsignedValue_eq_none_of_mem hcs hdigit]
      rfl
    next =>
      rw [unsignedValue_eq_none_of_mem hc hdigit]
      rfl
  rw [tokenWord, hvalue]

/-- One malformed token spoils the text. -/
theorem tokenWords_eq_error_of_mem {ts : List (List Char)} {t : List Char} (ht : t ∈ ts) (hnone : tokenWord t = none) :
    tokenWords ts = .error .malformedToken := by
  induction ts with
  | nil => exact absurd ht List.not_mem_nil
  | cons u us ih =>
    obtain rfl | ht := List.mem_cons.1 ht
    · simp only [tokenWords, hnone]
    · rw [tokenWords, ih ht]
      cases tokenWord u <;> rfl

/-- Splitting loses the commas only. -/
theorem exists_mem_splitCommas {cs : List Char} {c : Char} (hc : c ∈ cs) (hcomma : c ≠ ',') :
    ∃ t ∈ splitCommas cs, c ∈ t := by
  induction cs with
  | nil => exact absurd hc List.not_mem_nil
  | cons d ds ih =>
    rw [splitCommas]
    split_ifs with hd
    · have hds : c ∈ ds := (List.mem_cons.1 hc).resolve_left (hd ▸ hcomma)
      simpa using ih hds
    · split
      next hnil =>
        have hds : c ∉ ds := fun hds => by simpa [hnil] using ih hds
        exact ⟨[d], List.mem_singleton_self _, List.mem_singleton.2 ((List.mem_cons.1 hc).resolve_right hds)⟩
      next t ts hcons =>
        obtain rfl | hds := List.mem_cons.1 hc
        · exact ⟨c :: t, List.mem_cons_self, List.mem_cons_self⟩
        · obtain ⟨u, hu, hcu⟩ := ih hds
          rw [hcons] at hu
          obtain rfl | hu := List.mem_cons.1 hu
          · exact ⟨d :: u, List.mem_cons_self, List.mem_cons_of_mem d hcu⟩
          · exact ⟨u, List.mem_cons_of_mem _ hu, hcu⟩

/-- Settles O53: an empty token has no digit, and a foreign character stands in some token, which it spoils. -/
theorem malformedProgramTextIsRefused : Obligations.MalformedProgramTextIsRefused := by
  rintro text (hempty | ⟨c, hc, hcomma, hminus, hdigit⟩)
  · exact tokenWords_eq_error_of_mem hempty rfl
  · obtain ⟨t, ht, hct⟩ := exists_mem_splitCommas hc hcomma
    exact tokenWords_eq_error_of_mem ht (tokenWord_eq_none_of_mem hct hminus hdigit)

end Sys2Proof.Machine

/-! SUPPORT. A step and a move of the host at the queues' other ends can change places (spec/70_reset_and_hazards.md rule
R191). -/

namespace Sys2Proof.Machine

/-! ### Other queues -/

/-- `s` with `f` applied to its inbound queue and `g` to its outbound queue. -/
def onQueues (f g : List Word → List Word) (s : State) : State := { s with inq := f s.inq, outq := g s.outq }

section Queues

variable {f g : List Word → List Word} {s : State}

@[simp] theorem onQueues_inq : (onQueues f g s).inq = f s.inq := rfl
@[simp] theorem onQueues_inClosed : (onQueues f g s).inClosed = s.inClosed := rfl
@[simp] theorem onQueues_outq : (onQueues f g s).outq = g s.outq := rfl
@[simp] theorem onQueues_outCapacity : (onQueues f g s).outCapacity = s.outCapacity := rfl

@[simp] theorem fetch_onQueues : fetch (onQueues f g s) = fetch s := fetch_congr rfl rfl

@[simp] theorem readOp_onQueues (a : ReadOperand) : readOp (onQueues f g s) a = readOp s a := readOp_congr rfl rfl a

@[simp] theorem writeAddr_onQueues (a : WriteOperand) : writeAddr (onQueues f g s) a = writeAddr s a :=
  writeAddr_congr rfl a

@[simp] theorem inputTarget_onQueues : inputTarget (onQueues f g s) = inputTarget s := inputTarget_congr rfl rfl rfl

@[simp] theorem outputValue_onQueues : outputValue (onQueues f g s) = outputValue s := outputValue_congr rfl rfl rfl

/-- Fault entry leaves the queues, so what is gone on with decides. -/
theorem resolve_onQueues {α : Type} {e : Except Raise α} {k k' : α → Host.Outcome State Fault Refusal}
    (hk : ∀ v, e = .ok v → k' v = mapNext (onQueues f g) (k v)) :
    resolve e (onQueues f g s) k' = mapNext (onQueues f g) (resolve e s k) := by
  cases e with
  | error r => rfl
  | ok v => exact hk v rfl

theorem storeBinary_onQueues (op : Word → Word → Word) (a b : ReadOperand) (c : WriteOperand) :
    storeBinary op a b c (onQueues f g s) = mapNext (onQueues f g) (storeBinary op a b c s) := by
  simp only [storeBinary, readOp_onQueues, writeAddr_onQueues]
  exact resolve_onQueues fun va _ => resolve_onQueues fun vb _ => resolve_onQueues fun n _ => rfl

theorem jumpWhen_onQueues (taken : Word → Bool) (a b : ReadOperand) :
    jumpWhen taken a b (onQueues f g s) = mapNext (onQueues f g) (jumpWhen taken a b s) := by
  simp only [jumpWhen, readOp_onQueues]
  refine resolve_onQueues fun va _ => ?_
  cases taken va with
  | true => exact resolve_onQueues fun target _ => rfl
  | false => rfl

/-- `f` is compatible with taking the head of `q`: the same value is there to take, and the rest is changed alike. -/
structure KeepsHead (f : List Word → List Word) (q : List Word) : Prop where
  head : (f q).head? = q.head?
  tail : (f q).tail = f q.tail

/-- `input` takes the head of its queue. -/
theorem execInput_onQueues {a : WriteOperand} (h : ∀ n, writeAddr s a = .ok n → KeepsHead f s.inq) :
    execInput a (onQueues f g s) = mapNext (onQueues f g) (execInput a s) := by
  simp only [execInput, writeAddr_onQueues]
  refine resolve_onQueues fun n hn => ?_
  have hhead : inHead (onQueues f g s) = inHead s := (h n hn).head
  have hpop : inPop (onQueues f g s) = onQueues f g (inPop s) := by simp [inPop, onQueues, (h n hn).tail]
  rw [hhead, hpop, onQueues_inClosed]
  cases inHead s with
  | some v => rfl
  | none => cases s.inClosed <;> rfl

/-- `g` is compatible with a push onto the outbound queue of `s`: it leaves the room as it was and the end of the queue
as it is. -/
structure KeepsEnd (g : List Word → List Word) (s : State) : Prop where
  room : hasRoom s.outCapacity (g s.outq).length = hasRoom s.outCapacity s.outq.length
  append (v : Word) : g (s.outq ++ [v]) = g s.outq ++ [v]

/-- `output` looks at the room in its queue, and joins its end. -/
theorem execOutput_onQueues {a : ReadOperand} (h : ∀ v, readOp s a = .ok v → KeepsEnd g s) :
    execOutput a (onQueues f g s) = mapNext (onQueues f g) (execOutput a s) := by
  simp only [execOutput, readOp_onQueues]
  refine resolve_onQueues fun v hv => ?_
  have hroom : outCanPush (onQueues f g s) = outCanPush s := (h v hv).room
  have hpush : outPush v (onQueues f g s) = onQueues f g (outPush v s) := by
    simp [outPush, onQueues, (h v hv).append]
  rw [hroom, hpush]
  cases outCanPush s <;> rfl

theorem execAdjustRelativeBase_onQueues (a : ReadOperand) :
    execAdjustRelativeBase a (onQueues f g s) = mapNext (onQueues f g) (execAdjustRelativeBase a s) := by
  simp only [execAdjustRelativeBase, readOp_onQueues]
  exact resolve_onQueues fun v _ => rfl

theorem exec_onQueues {i : Instr} (hin : ∀ a n, i = .input a → writeAddr s a = .ok n → KeepsHead f s.inq)
    (hout : ∀ a v, i = .output a → readOp s a = .ok v → KeepsEnd g s) :
    exec i (onQueues f g s) = mapNext (onQueues f g) (exec i s) := by
  cases i with
  | add a b c => exact storeBinary_onQueues wrapAdd a b c
  | mul a b c => exact storeBinary_onQueues wrapMul a b c
  | input a => exact execInput_onQueues fun n => hin a n rfl
  | output a => exact execOutput_onQueues fun v => hout a v rfl
  | jumpIfTrue a b => exact jumpWhen_onQueues isNonZero a b
  | jumpIfFalse a b => exact jumpWhen_onQueues (fun v => !isNonZero v) a b
  | lessThan a b c => exact storeBinary_onQueues lessThanWord a b c
  | equals a b c => exact storeBinary_onQueues equalsWord a b c
  | adjustRelativeBase a => exact execAdjustRelativeBase_onQueues a
  | halt => rfl

/-- A step does with other queues what it does, where its `input` finds the same head and its `output` the same room. -/
theorem step_onQueues {t : State} (h : step s = .next t) (hin : (inputTarget s).isSome = true → KeepsHead f s.inq)
    (hout : (outputValue s).isSome = true → KeepsEnd g s) : step (onQueues f g s) = .next (onQueues f g t) := by
  obtain ⟨hs, ⟨r, hr, rfl⟩ | ⟨i, hf, he⟩⟩ := step_cases h
  · exact step_of_fetch_error (s := onQueues f g s) hs (fetch_onQueues.trans hr)
  · have hexec : exec i (onQueues f g s) = mapNext (onQueues f g) (exec i s) := by
      refine exec_onQueues ?_ ?_
      · rintro a n rfl hn
        exact hin (by simp [inputTarget, hf, hn])
      · rintro a v rfl hv
        exact hout (by simp [outputValue, hf, hv])
    rw [he] at hexec
    exact (step_of_fetch (s := onQueues f g s) hs (fetch_onQueues.trans hf)).trans hexec

end Queues

/-! ### The host's moves -/

theorem hasRoom_of_le {c : Capacity} {m n : Nat} (hmn : m ≤ n) (h : hasRoom c n = true) : hasRoom c m = true := by
  cases c with
  | unbounded => rfl
  | bounded k => exact decide_eq_true (Nat.lt_of_le_of_lt hmn (of_decide_eq_true h))

theorem hostSend_eq_some_iff {v : Word} {s t : State} :
    hostSend v s = some t ↔
      s.inClosed = false ∧ hasRoom s.inCapacity s.inq.length = true ∧ t = onQueues (· ++ [v]) id s := by
  simp [hostSend, onQueues, and_assoc, @eq_comm _ t]

theorem hostRecv_eq_some_iff {v : Word} {s t : State} :
    hostRecv s = some (v, t) ↔ s.outq.head? = some v ∧ t = onQueues id List.tail s := by
  cases hq : s.outq <;> simp [hostRecv, onQueues, hq, eq_comm]

/-- The condition RUN: neither wait. -/
theorem condition_eq_run_iff {s : State} :
    condition s = .run ↔ s.status = .running ∧
      ((inputTarget s).isSome = true → s.inq = [] → s.inClosed = true) ∧
      ((outputValue s).isSome = true → outCanPush s = true) := by
  constructor
  · intro h
    have hs : s.status = .running := status_eq_running_of_condition (by simp [h]) (by simp [h])
    refine ⟨hs, fun hin hq => ?_, outCanPush_of_run h⟩
    by_contra hopen
    have hwait : condition s = .waitIn := condition_eq_waitIn_iff.2 ⟨hs, hin, hq, Bool.not_eq_true _ ▸ hopen⟩
    simp [h] at hwait
  · rintro ⟨hs, hin, hout⟩
    refine condition_eq_run_of_not_waiting hs (fun ⟨htarget, hq, hopen⟩ => ?_) (fun ⟨hvalue, hfull⟩ => ?_)
    · simp [hin htarget hq] at hopen
    · simp [hout hvalue] at hfull

/-- Settles O47: the host appends to a queue from which the step takes at most the head, and which an enabled `input`
finds not empty, the channel being open. -/
theorem sendingCommutesWithAStep : Obligations.SendingCommutesWithAStep := by
  intro s s' t v hrun hstep hsend
  obtain ⟨hopen, hroom, rfl⟩ := hostSend_eq_some_iff.1 hsend
  obtain ⟨hs, hin, hout⟩ := condition_eq_run_iff.1 hrun
  have hhead (htarget : (inputTarget s).isSome = true) : KeepsHead (· ++ [v]) s.inq := by
    have hq : s.inq ≠ [] := fun hq => by simp [hin htarget hq] at hopen
    exact ⟨List.head?_append_of_ne_nil _ hq, List.tail_append_of_ne_nil hq⟩
  have hend (_ : (outputValue s).isSome = true) : KeepsEnd id s := ⟨rfl, fun _ => rfl⟩
  obtain ⟨hclosed, hcap⟩ := step_keeps_inClosed_inCapacity hstep
  have hlength : t.inq.length ≤ s.inq.length := by
    simp [← stepTraffic_consumed_append hstep]
  exact ⟨onQueues (· ++ [v]) id t,
    hostSend_eq_some_iff.2 ⟨hclosed.trans hopen, hcap ▸ hasRoom_of_le hlength hroom, rfl⟩,
    step_onQueues hstep hhead hend,
    condition_eq_run_iff.2 ⟨hs, fun _ hq => absurd hq (by simp), by simpa [outCanPush] using hout⟩⟩

/-- Settles O48: the host takes the head of a queue to whose end the step appends at most one value, and in which an
enabled `output` finds room, so also room once the head is gone. -/
theorem receivingCommutesWithAStep : Obligations.ReceivingCommutesWithAStep := by
  intro s s' t v hrun hstep hrecv
  obtain ⟨hq, rfl⟩ := hostRecv_eq_some_iff.1 hrecv
  obtain ⟨hs, hin, hout⟩ := condition_eq_run_iff.1 hrun
  have hroom (hvalue : (outputValue s).isSome = true) : outCanPush (onQueues id List.tail s) = true :=
    hasRoom_of_le (by simp) (hout hvalue)
  have hne : s.outq ≠ [] := fun hnil => by simp [hnil] at hq
  have hend (hvalue : (outputValue s).isSome = true) : KeepsEnd List.tail s :=
    ⟨(hroom hvalue).trans (hout hvalue).symm, fun _ => List.tail_append_of_ne_nil hne⟩
  have hhead : t.outq.head? = some v := by
    rw [(step_outq_of_run hrun hstep).1, List.head?_append_of_ne_nil _ hne, hq]
  exact ⟨onQueues id List.tail t, hostRecv_eq_some_iff.2 ⟨hhead, rfl⟩,
    step_onQueues hstep (fun _ => ⟨rfl, rfl⟩) hend,
    condition_eq_run_iff.2 ⟨hs, by simpa using hin, by simpa using hroom⟩⟩

end Sys2Proof.Machine

/-! SUPPORT. One transition of a network: what it leaves of the machines that take no part, and what the reader of a
connection does with a value it consumes (spec/60_exceptions.md rule R166). -/

namespace Sys2Proof.Machine

/-! ### The machines that take no part -/

theorem step_keeps_outCapacity {s t : State} (h : step s = .next t) : t.outCapacity = s.outCapacity := by
  obtain ⟨-, ⟨r, -, rfl⟩ | ⟨i, -, he⟩⟩ := step_raises_or_effect h
  · rfl
  · cases he <;> rfl

theorem Carries.outCapacity_eq {m : Move} {s t : State} {y : Traffic} (h : Carries s m t y) :
    t.outCapacity = s.outCapacity := by
  cases h with
  | step hrun hstep => exact step_keeps_outCapacity hstep
  | _ => rfl

/-- What a transition `m` of `net` leaves of machine `l`, which takes no part: its channels alone can change, each where
the machine at its other end takes part. -/
structure Untouched (net : Network) (m : NetMove) (l : Nat) (s s' : State) : Prop where
  frame : s' = { s with inq := s'.inq, inClosed := s'.inClosed, outq := s'.outq }
  inbound : (∀ k, (⟨k, l⟩ : Wire) ∈ net.wires → m.moves k = false) → s'.inq = s.inq ∧ s'.inClosed = s.inClosed
  outbound : (∀ k, (⟨l, k⟩ : Wire) ∈ net.wires → m.moves k = false) → s'.outq = s.outq

theorem Untouched.refl (net : Network) (m : NetMove) (l : Nat) (s : State) : Untouched net m l s s :=
  ⟨rfl, fun _ => ⟨rfl, rfl⟩, fun _ => rfl⟩

/-- A move of machine `k` reaches another machine through the connections between them only. -/
theorem untouched_of_move {net : Network} {k l : Nat} {m : Move} {s t u : State} {y : Traffic} (hwired : net.wired)
    (hlk : l ≠ k) (hk : net.machine k = some s) (hl : net.machine l = some u) (hcarries : Carries s m t y) :
    ∃ u', (net.store k t y.consumed.length).machine l = some u' ∧ Untouched net (.move k m) l u u' := by
  have hmoved : (NetMove.move k m).moves k = true := by simp [NetMove.moves]
  refine ⟨_, Network.machine_store_other hwired hlk hk hl, ?_, fun hfeeders => ?_, fun hreaders => ?_⟩
  · by_cases hfed : net.feeder l = some k
    · have hcap := (Network.inbound_of_wire hwired ((Network.feeder_eq_some hwired).1 hfed) hk hl).2.2
      simp [hfed, hcarries.outCapacity_eq, hcap]
    · simp [hfed]
  · have hunfed : net.feeder l ≠ some k := fun hf => by
      simp [hfeeders k ((Network.feeder_eq_some hwired).1 hf)] at hmoved
    simp [hunfed]
  · have hunread : net.feeder k ≠ some l := fun hf => by
      simp [hreaders k ((Network.feeder_eq_some hwired).1 hf)] at hmoved
    simp [hunread]

/-- A joint transition passes its value over an empty queue, so it reaches no third machine. -/
theorem untouched_of_fireNet {m : NetMove} {net net' : Network} {x : NetTraffic} {l : Nat} {s : State}
    (hwired : net.wired) (h : fireNet m net = some (net', x)) (hl : net.machine l = some s)
    (hmoves : m.moves l = false) : ∃ s', net'.machine l = some s' ∧ Untouched net m l s s' := by
  obtain ⟨k, v, u, t, y, rfl, hk, -, hfire, rfl, rfl⟩ |
    ⟨i, j, a, b, v, a', b', rfl, hij, ha, hb, hsend, hrecv, rfl, rfl⟩ := fireNet_cases h
  · have hlk : l ≠ k := fun he => by simp [NetMove.moves, he] at hmoves
    exact untouched_of_move hwired hlk hk hl (carries_of_fire hfire)
  · obtain ⟨hi, hj⟩ : i ≠ l ∧ j ≠ l := by simpa [NetMove.moves] using hmoves
    have hmachine := Network.machine_store_store_of_sameEnds hwired (Network.source_ne_sink hwired hij) ha hb
      (sameEnds_of_hostRecvDirect hsend) (sameEnds_of_receiveDirect hrecv) hl
    rw [if_neg hj.symm, if_neg hi.symm] at hmachine
    exact ⟨s, hmachine, .refl net _ l s⟩

/-- Settles O55: a move reaches another machine through their connections only, and a joint transition reaches none. -/
theorem machinesShareOnlyChannels : Obligations.MachinesShareOnlyChannels := by
  intro m net net' x l s hwired h hl hmoves
  obtain ⟨s', hs', huntouched⟩ := untouched_of_fireNet hwired h hl hmoves
  exact ⟨s', hs', huntouched.frame, huntouched.inbound, huntouched.outbound⟩

/-! ### What the reader of a connection does with a value -/

/-- Where `b` consumed the values `q` on the way to `b'`, it is one value, and `b'` holds it at the target of the
`input` of `b`. -/
def StoresConsumed (b b' : State) (q : List Word) : Prop :=
  q ≠ [] → ∃ t n v, fetch b = .ok (.input t) ∧ writeAddr b t = .ok n ∧ q = [v] ∧ b'.mem.read n = v

theorem storesConsumed_nil (b b' : State) : StoresConsumed b b' [] := fun h => absurd rfl h

/-- An `input` with a target that leads to `b'` by taking `v` holds it there. -/
theorem storesConsumed_of_inputTarget {b b' : State} {n : Nat} {v : Word} (hn : inputTarget b = some n)
    (hread : b'.mem.read n = v) : StoresConsumed b b' [v] := fun _ => by
  obtain ⟨t, hf, ht⟩ := inputTarget_eq_some_iff.1 hn
  exact ⟨t, n, v, hf, ht, rfl, hread⟩

theorem mem_read_of_step_input {s t : State} {n : Nat} {v : Word} {rest : List Word} (h : step s = .next t)
    (hn : inputTarget s = some n) (hq : s.inq = v :: rest) : t.mem.read n = v := by
  obtain ⟨a, hf, ha⟩ := inputTarget_eq_some_iff.1 hn
  have hexec : execInput a s = .next t := (step_of_fetch (step_cases h).1 hf).symm.trans h
  cases hexec.symm.trans (execInput_of_value (writable_of_writeAddr_ok ha) hq)
  rw [writeAddr_ok_eq ha]
  exact Memory.read_write_same _ _ _

theorem storesConsumed_of_step {s t : State} (h : step s = .next t) : StoresConsumed s t (stepTraffic s).consumed := by
  cases hn : inputTarget s with
  | none => simp [stepTraffic, hn, storesConsumed_nil]
  | some n =>
    cases hq : s.inq with
    | nil => simp [stepTraffic, hq, storesConsumed_nil]
    | cons v rest =>
      simpa [stepTraffic, hn, hq] using storesConsumed_of_inputTarget hn (mem_read_of_step_input h hn hq)

/-- Only a step consumes. -/
theorem Carries.storesConsumed {m : Move} {s t : State} {y : Traffic} (h : Carries s m t y) :
    StoresConsumed s t y.consumed := by
  cases h with
  | step hrun hstep => exact storesConsumed_of_step hstep
  | _ => exact storesConsumed_nil _ _

theorem storesConsumed_of_receiveDirect {v : Word} {b b' : State} (h : receiveDirect v b = some b') :
    StoresConsumed b b' [v] := by
  obtain ⟨hwait, -⟩ := receiveDirect_eq_some h
  obtain ⟨-, hin, -, -⟩ := condition_eq_waitIn_iff.1 hwait
  obtain ⟨n, hn⟩ := Option.isSome_iff_exists.1 hin
  cases h.symm.trans (receiveDirect_of_waitIn hwait hn v)
  exact storesConsumed_of_inputTarget hn (Memory.read_write_same _ _ _)

/-- The values that a transition brings machine `j` are stored by its `input`. -/
theorem storesConsumed_of_fireNet {m : NetMove} {net net' : Network} {x : NetTraffic} {j : Nat} {b b' : State}
    (hwired : net.wired) (hb : net.machine j = some b) (h : fireNet m net = some (net', x))
    (hb' : net'.machine j = some b') : StoresConsumed b b' (consumedBy j x) := by
  obtain ⟨k, v, s, t, y, rfl, hk, hallow, hfire, rfl, rfl⟩ |
    ⟨k, l, s, u, v, s', u', rfl, hkl, hk, hl, hsend, hrecv, rfl, rfl⟩ := fireNet_cases h
  · by_cases hkj : k = j
    · subst hkj
      cases hb.symm.trans hk
      have hself := Network.machine_store_self hwired hk fun hfed => fire_keeps_fed_inbound hallow hfed hfire
      cases hb'.symm.trans hself
      simpa using (carries_of_fire hfire).storesConsumed
    · simp [hkj, storesConsumed_nil]
  · by_cases hlj : l = j
    · subst hlj
      cases hb.symm.trans hl
      have hne := Network.source_ne_sink hwired hkl
      have hsink := Network.machine_store_store_of_sameEnds hwired hne hk hl (sameEnds_of_hostRecvDirect hsend)
        (sameEnds_of_receiveDirect hrecv) hl
      rw [if_pos rfl] at hsink
      cases hb'.symm.trans hsink
      simpa [hne, Traffic.nothing] using storesConsumed_of_receiveDirect hrecv
    · simp [hlj, Traffic.nothing, storesConsumed_nil]

/-- Settles O51: a legal wiring makes B's inbound channel A's outbound one before and after, the traffic accounts for
its change, and what B consumed its `input` stored. -/
theorem wiredMachinesShareOneFifo : Obligations.WiredMachinesShareOneFifo := by
  intro m net net' x i j a b hwired hij ha hb h
  obtain ⟨hwires, -, hkeep⟩ := fireNet_wires h
  have hwired' := hkeep hwired
  have hij' : (⟨i, j⟩ : Wire) ∈ net'.wires := hwires ▸ hij
  obtain ⟨a', ha', hdelivers⟩ := delivers_of_fireNet hwired hij ha h
  obtain ⟨b', hb'⟩ := Network.exists_machine hwired' (hwired'.1 _ hij').2.1
  have hbefore := Network.inbound_of_wire hwired hij ha hb
  have hafter := Network.inbound_of_wire hwired' hij' ha' hb'
  refine ⟨hbefore, a', b', ha', hb', hafter, hdelivers.outLog, ?_, storesConsumed_of_fireNet hwired hb h hb'⟩
  rw [hbefore.1, hafter.1, hdelivers.outq]

end Sys2Proof.Machine
